-- ==== Sys2Proof/Word.lean ====
section
/-! DEFINITION. The word types of the three ports (30_encoding.md R90, R100; 20_memory.md R67). -/

namespace Sys2Proof

/-- A word on the request port (R90, REQ_BITS = 64). -/
abbrev RequestWord := BitVec 64

/-- A value on the response port (R100). -/
abbrev Response := BitVec 16

/-- One 32-bit stereo frame of the outgoing stream OUT (R67). -/
abbrev Frame := BitVec 32

end Sys2Proof
end

