-- ==== Sys2Proof/Config.lean ====
section
/-! DEFINITION. What is fixed for one core: the parameters the document fixes (00_scope.md R5), the types of the
parameters it leaves open (R6; their values are in Machine/Params.lean), and the free values. -/

namespace Sys2Proof.Config

/-! ## R5: parameters the document fixes
NCH = 4, NSFX = 64, NSONG = 64 and NNOTE = 32 are the bounds of the types `Fin 4`, `Fin 64`, `Fin 32`; IDLE = -1 is
the `none` of a signed index (log 10). -/

/-- FS: the sample rate in Hz (R5). -/
abbrev fs : Rat := 22050

/-- DIV: samples per note at speed 1 (R5). -/
abbrev div : Rat := 183

/-- NNOTE as a position: pattern and sound-effect length in note units (R5). -/
abbrev nnote : Rat := 32

/-- VOLMAX: the note volume divisor (R5). -/
abbrev volMax : Rat := 7

/-- ATTEN: the mixer's right shift by 3, as the divisor 8 of `asr3` (R5, R9). -/
abbrev attenDivisor : Int := 8

/-- PREVKEY0: what a trigger writes to `prevKey` (R5). -/
abbrev prevKey0 : Fin 64 := 24

/-! ## R6: the types of the parameters the document leaves open -/

/-- MASK_ZERO_TEST (R6, R142, D12: OPEN): what "if nonzero" tests. Log 7. -/
inductive MaskZeroTest where
  | operand
  | masked
  deriving DecidableEq, Repr

/-- ROUND (R6, D4): the one rounding the spec implements. Log 15. -/
inductive Rounding where
  | towardZero
  deriving DecidableEq, Repr

/-- PATTERN_OVERRUN (R6, R149, D14): the one value the spec implements. Log 15. -/
inductive PatternOverrun where
  | stop
  deriving DecidableEq, Repr

/-! ## Free values: uninterpreted, so a claim that mentions one holds for every value of it -/

/-- The header word of a sound effect the host never filled (93 item 13: any value). Log 4. -/
opaque unfilledHdr : Nat → BitVec 24

/-- The note word, keyed by 32 * i + n, of a note the host never filled (93 item 13: any value). Keys from 2048 on
stand for a note index outside 0..31, which no rule produces (R62). Log 4, log 12. -/
opaque unfilledNote : Nat → BitVec 16

/-- The song row of a pattern the host never filled (93 item 13: any value). Log 4. -/
opaque unfilledSong : Nat → BitVec 32

/-- The external waveform generator (R72) wherever the state does not describe it: waveform identifier, phase
within one cycle. W2 and W3 of R73 are made to hold where it is read (`Machine.waveAt`). Log 6. -/
opaque wave : BitVec 4 → Nat → Rat

end Sys2Proof.Config
end

