-- ==== Sys2Proof/Syntax.lean ====
section
/-! DEFINITION. The requests of the core, one constructor per row of opcode_table.json (30_encoding.md R94, R96). -/

namespace Sys2Proof

/-- A request with its operands as mathematical integers (R93). Log 11. -/
inductive Instr where
  /-- `SFX a, b, c`: sfxIndex, channel, startOffset (40_sfx_allocator.md R120). -/
  | sfx (a b c : Int)
  /-- `MUSIC a, b, c`: pattern, fadeLenMs, channelMask (41_music_sequencer.md R140). -/
  | music (a b c : Int)
  /-- `FILL bv, n`: buffer valid, sampleFrameCount (43_mixer_fill.md R193). -/
  | fill (bv : Bool) (n : Nat)
  /-- `STAT r`: register number (44_stat.md R196). -/
  | stat (r : Int)
  deriving DecidableEq, Repr

end Sys2Proof
end

