-- ==== Sys2Proof/WellFormed.lean ====
section
/-! DEFINITION. Which instruction terms a request word can carry (30_encoding.md R93): 16-bit signed operands, and a
32-bit unsigned frame count. Operands outside an operation's own range are well formed: the operation ignores them
(R96). -/

namespace Sys2Proof

/-- `v` is an `int16`, -32768..32767 (R7). -/
def isInt16 (v : Int) : Bool := decide (-32768 ≤ v) && decide (v ≤ 32767)

/-- `n` fits the unsigned 32-bit count of format F (R92, R93; FILLN_BITS). -/
def isUInt32 (n : Nat) : Bool := decide (n < 4294967296)

/-- The operands of `i` can be written in its format (R93, R97). -/
def Instr.wf : Instr → Bool
  | .sfx a b c => isInt16 a && isInt16 b && isInt16 c
  | .music a b c => isInt16 a && isInt16 b && isInt16 c
  | .fill _ n => isUInt32 n
  | .stat r => isInt16 r

end Sys2Proof
end

