-- ==== Sys2Proof/Decode.lean ====
section
/-! DEFINITION. The decoder, total on every 64-bit word (30_encoding.md R94 to R96), the encoder (R97), and the
assembler spellings and pseudo-requests (R97, R98). The core has one word per request (R90): there is no byte order
inside it and no longer instruction. -/

namespace Sys2Proof

/-- `sext16(w)`: a 16-bit field read as `int16` (R7, R93). -/
def sext16 (f : BitVec 16) : Int := f.toInt

/-- `u16(v)`: the 16-bit two's-complement pattern of `v` (R7). -/
def u16 (v : Int) : BitVec 16 := BitVec.ofInt 16 v

/-! ## Fields of a request word (R91, R92) -/

def opField (w : RequestWord) : BitVec 8 := w.extractLsb' 56 8
def zField (w : RequestWord) : BitVec 8 := w.extractLsb' 48 8
def aField (w : RequestWord) : BitVec 16 := w.extractLsb' 32 16
def bField (w : RequestWord) : BitVec 16 := w.extractLsb' 16 16
def cField (w : RequestWord) : BitVec 16 := w.extractLsb' 0 16
def z1Field (w : RequestWord) : BitVec 7 := w.extractLsb' 49 7
def bvField (w : RequestWord) : Bool := w.getLsbD 48
def z2Field (w : RequestWord) : BitVec 16 := w.extractLsb' 32 16
def nField (w : RequestWord) : BitVec 32 := w.extractLsb' 0 32

/-! ## The opcode map (R94) -/

/-- One row of the opcode map: a word encodes the request when its bits under `mask` are `pattern`. -/
structure OpRow where
  mask : RequestWord
  pattern : RequestWord
  deriving DecidableEq, Repr

def OpRow.hits (r : OpRow) (w : RequestWord) : Bool := w &&& r.mask == r.pattern

def sfxRow : OpRow := ⟨0xFFFF000000000000, 0x0100000000000000⟩
def musicRow : OpRow := ⟨0xFFFF000000000000, 0x0200000000000000⟩
def fillRow : OpRow := ⟨0xFFFEFFFF00000000, 0x0300000000000000⟩
def statRow : OpRow := ⟨0xFFFF0000FFFFFFFF, 0x0400000000000000⟩

/-- The row of each request's mnemonic. -/
def Instr.row : Instr → OpRow
  | .sfx _ _ _ => sfxRow
  | .music _ _ _ => musicRow
  | .fill _ _ => fillRow
  | .stat _ => statRow

/-- Why a word matches no row (R95). The names are the model's; the core treats all of them alike. Log 17. -/
inductive Reserved where
  /-- `op` is outside 0x01..0x04. -/
  | opcode
  /-- format C with `z` not zero. -/
  | zNotZero
  /-- `FILL` with `z1` not zero. -/
  | z1NotZero
  /-- `FILL` with `z2` not zero. -/
  | z2NotZero
  /-- `STAT` with `B` not zero. -/
  | statBNotZero
  /-- `STAT` with `C` not zero. -/
  | statCNotZero
  deriving DecidableEq, Repr

/-- What a request word is: a request, or reserved (R96). -/
inductive Decoded where
  | request (i : Instr)
  | reserved (why : Reserved)
  deriving DecidableEq, Repr

/-- The name of a word that matches no row (R95). -/
def reservedReason (w : RequestWord) : Reserved :=
  if opField w = 0x03 then
    (if z1Field w ≠ 0 then .z1NotZero else .z2NotZero)
  else if opField w = 0x01 ∨ opField w = 0x02 then .zNotZero
  else if opField w = 0x04 then
    (if zField w ≠ 0 then .zNotZero else if bField w ≠ 0 then .statBNotZero else .statCNotZero)
  else .opcode

/-- The decoder: "it maps every 64-bit word to exactly one of" the four requests and RESERVED (R96). -/
def decode (w : RequestWord) : Decoded :=
  if sfxRow.hits w then .request (.sfx (sext16 (aField w)) (sext16 (bField w)) (sext16 (cField w)))
  else if musicRow.hits w then .request (.music (sext16 (aField w)) (sext16 (bField w)) (sext16 (cField w)))
  else if fillRow.hits w then .request (.fill (bvField w) (nField w).toNat)
  else if statRow.hits w then .request (.stat (sext16 (aField w)))
  else .reserved (reservedReason w)

/-! ## The encoder -/

/-- A format C word from its fields, most significant first (R91). -/
def formatC (op z : BitVec 8) (a b c : BitVec 16) : RequestWord :=
  (op ++ z ++ a ++ b ++ c : BitVec (8 + 8 + 16 + 16 + 16))

/-- A format F word from its fields, most significant first (R92). -/
def formatF (op : BitVec 8) (z1 : BitVec 7) (bv : Bool) (z2 : BitVec 16) (n : BitVec 32) : RequestWord :=
  (op ++ z1 ++ BitVec.ofBool bv ++ z2 ++ n : BitVec (8 + 7 + 1 + 16 + 32))

/-- The word of a well-formed request (R97). -/
def encode : Instr → RequestWord
  | .sfx a b c => formatC 0x01 0 (u16 a) (u16 b) (u16 c)
  | .music a b c => formatC 0x02 0 (u16 a) (u16 b) (u16 c)
  | .fill bv n => formatF 0x03 0 bv 0 (BitVec.ofNat 32 n)
  | .stat r => formatC 0x04 0 (u16 r) 0 0

/-- The request word that holds the table's bits `w` of an instruction of `nbits` bits, every higher bit 0. -/
def tableWord (nbits w : Nat) : RequestWord := BitVec.ofNat 64 (w % 2 ^ nbits)

/-- What the decoder reads from an instruction whose bits, numbered as opcode_table.json numbers them, are `w`. A
request is one 64-bit word (R90), so nothing wider is one. Log 18. -/
def decodeTableWord (nbits w : Nat) : Option Instr :=
  if 64 < nbits then none
  else
    match decode (tableWord nbits w) with
    | .request i => some i
    | .reserved _ => none

/-! ## Spellings (R97, R98) -/

/-- A pseudo-request: a spelling of one real request (R98). -/
inductive Pseudo where
  /-- `SFX.STOP ch` -/
  | sfxStop (ch : Int)
  /-- `SFX.NOLOOP ch` -/
  | sfxNoLoop (ch : Int)
  /-- `SFX.PLAY s` -/
  | sfxPlay (s : Int)
  /-- `MUSIC.STOP` -/
  | musicStop
  /-- `MUSIC.FADEOUT ms` -/
  | musicFadeout (ms : Int)
  /-- `MUSIC.PLAY p` -/
  | musicPlay (p : Int)
  /-- `FILL n` -/
  | fill (n : Nat)
  deriving DecidableEq, Repr

/-- The request a pseudo-request expands to (R98). -/
def Pseudo.expand : Pseudo → Instr
  | .sfxStop ch => .sfx (-1) ch 0
  | .sfxNoLoop ch => .sfx (-2) ch 0
  | .sfxPlay s => .sfx s (-1) 0
  | .musicStop => .music (-1) 0 0
  | .musicFadeout ms => .music (-1) ms 0
  | .musicPlay p => .music p 0 0
  | .fill n => .fill true n

/-- The assembler spelling of a request (R97). -/
def Instr.spelling : Instr → String
  | .sfx a b c => "SFX " ++ toString a ++ ", " ++ toString b ++ ", " ++ toString c
  | .music a b c => "MUSIC " ++ toString a ++ ", " ++ toString b ++ ", " ++ toString c
  | .fill bv n => "FILL " ++ (if bv then "1" else "0") ++ ", " ++ toString n
  | .stat r => "STAT " ++ toString r

end Sys2Proof
end

