-- ==== Sys2Proof/Machine/Params.lean ====
section
/-! DEFINITION. The parameters the document leaves open, at the values the spec takes (00_scope.md R6). NUM,
PHASE_FRAC, KEY_BITS, WAVE_BITS, EFFECT_BITS, VOL_BITS, SPEED_BITS, LOOP_BITS, MASK_BIT, MCOUNT_BITS, FILLN_BITS and
REQ_BITS are in the types of State, Operands and Decode. -/

namespace Sys2Proof.Config

/-- PHASE_FRAC = 32: the phase units of one waveform cycle (R6, R23, D2). -/
def cycle : Nat := 4294967296

/-- FULLSCALE, the literal 32767.99 read exactly (R5, R6, D5). -/
def fullScale : Rat := 3276799 / 100

/-- ROUND (R6, R180, D4, conflict C1). Log 15. -/
def round : Rounding := .towardZero

/-- CH_ORDER (R6, R190, D10). Log 15. -/
def chOrder : List (Fin 4) := [0, 1, 2, 3]

/-- PATTERN_OVERRUN (R6, R149, D14). Log 15. -/
def patternOverrun : PatternOverrun := .stop

/-- The value of MASK_ZERO_TEST the spec takes by default (R6, R142, D12). Log 7. -/
def maskZeroTestTaken : MaskZeroTest := .operand

/-- PHASE_INC for keys 0..31 (R181). -/
def phaseIncLow : List Nat :=
  [12740059, 13497623, 14300233, 15150569, 16051469, 17005939, 18017165, 19088521] ++
  [20223584, 21426141, 22700205, 24050030, 25480119, 26995246, 28600467, 30301139] ++
  [32102938, 34011878, 36034330, 38177043, 40447168, 42852281, 45400411, 48100060] ++
  [50960238, 53990491, 57200933, 60602278, 64205876, 68023757, 72068660, 76354085]

/-- PHASE_INC for keys 32..63 (R181). -/
def phaseIncHigh : List Nat :=
  [80894335, 85704563, 90800821, 96200119, 101920476, 107980983, 114401866, 121204555] ++
  [128411753, 136047513, 144137319, 152708170, 161788671, 171409126, 181601643, 192400238] ++
  [203840952, 215961966, 228803732, 242409110, 256823506, 272095026, 288274639, 305416341] ++
  [323577341, 342818251, 363203285, 384800477, 407681904, 431923931, 457607465, 484818220]

/-- PHASE_INC[key]: the phase increment of one audible sample (R181, D2). -/
def phaseInc (key : Fin 64) : Nat := (phaseIncLow ++ phaseIncHigh).getD key.val 0

end Sys2Proof.Config
end

