-- ==== Sys2Proof/Machine/State.lean ====
section
/-! DEFINITION. The state of the machine as plain data (10_state.md), its reset (R47, R220), and the reasons a step
can stop, of which there are none (60_exceptions.md R200). -/

namespace Sys2Proof.Machine

/-- A value of `Q-inf` (R8): the exact rationals and one extra value `-inf`. -/
inductive QInf where
  | fin (q : Rat)
  | negInf
  deriving DecidableEq, Repr

/-- A SfxChannel record (R21 to R27). `none` in `sfxId` is the spec's -1, idle (R29). Log 9, log 10, log 13. -/
structure Channel where
  /-- R21: -1 or 0..63. -/
  sfxId : Option (Fin 64)
  /-- R22: position in note units, an exact rational. -/
  offset : Rat
  /-- R23: phase in units of 2^-32 cycle, unbounded. -/
  phase : Nat
  /-- R24: the loop-enable flag. -/
  canLoop : Bool
  /-- R25: driven by the sequencer. -/
  isMusic : Bool
  /-- R26: key of the last note this channel left. -/
  prevKey : Fin 64
  /-- R27: normalised volume of the last note this channel left. -/
  prevVolume : Rat
  deriving DecidableEq, Repr

/-- The four channel records `CH[0..3]` (R20). -/
structure Channels where
  ch0 : Channel
  ch1 : Channel
  ch2 : Channel
  ch3 : Channel
  deriving DecidableEq, Repr

/-- The MusicChannel record `MUS` (R30 to R37). `none` in `pattern` and `master` is the spec's -1. -/
structure Music where
  /-- R30: -1 (stopped) or 0..63. -/
  pattern : Option (Fin 64)
  /-- R31: song position in note units. -/
  offset : Rat
  /-- R32: bit `c` set means channel `c` is controlled. -/
  mask : BitVec 4
  /-- R33: current fade volume. -/
  volume : Rat
  /-- R34: per-second volume delta. -/
  volumeStep : QInf
  /-- R35: -1, or 1..255. -/
  speed : Int
  /-- R36: -1 or 0..3. -/
  master : Option (Fin 4)
  /-- R37: patterns played since start, 16 bits, wraps. -/
  count : BitVec 16
  deriving DecidableEq, Repr

/-- One record space: packed record words by record index, keys strictly rising. A record that is not listed is one
the host never filled. Log 3, log 4. -/
abbrev Sparse (w : Nat) := List (Nat × BitVec w)

/-- The two read-only tables (R41, R43, R60), packed as R64 says. -/
structure Memory where
  /-- SFXT headers by sound-effect index `i`. -/
  hdrs : Sparse 24
  /-- SFXT notes by `32 * i + n`. -/
  notes : Sparse 16
  /-- SONGT rows by pattern index `p`. -/
  songs : Sparse 32
  deriving DecidableEq, Repr

/-- One piece of the external waveform function as the host supplies it: for waveform `id` and a phase `p` within
the cycle with `lo ≤ p < hi`, the value `base + slope * (p - lo)`. THE MODEL'S OWN. Log 6. -/
structure WavePiece where
  id : BitVec 4
  lo : Nat
  hi : Nat
  base : Rat
  slope : Rat
  deriving DecidableEq, Repr

/-- What the core is given and never writes (R44): the tables, the waveform function, the OPEN parameter. -/
structure Env where
  tables : Memory
  /-- Pieces of Wave (R72); where none applies, Wave is free (`Config.wave`). Log 6. -/
  wave : List WavePiece
  /-- MASK_ZERO_TEST (R142, D12). Log 7. -/
  maskZeroTest : Config.MaskZeroTest
  deriving DecidableEq, Repr

/-- A change the host makes to a table between two requests (R76, R224, D19). Log 5. -/
inductive TableWrite where
  | hdr (i : Fin 64) (v : BitVec 24)
  | note (i : Fin 64) (n : Fin 32) (v : BitVec 16)
  | song (p : Fin 64) (v : BitVec 32)
  deriving DecidableEq, Repr

/-- What the host does next: present a request word (R90), or change a table between requests. Log 1, log 5. -/
inductive PortEvent where
  | request (w : RequestWord)
  | table (t : TableWrite)
  deriving DecidableEq, Repr

/-- The whole machine: the core's own state `ch` and `mus` (R20: exactly these), and its boundary (R44, R60). -/
structure State where
  ch : Channels
  mus : Music
  env : Env
  /-- The host's pending port events, oldest first. Log 1. -/
  port : List PortEvent
  /-- The responses given so far, oldest first (R100). Log 2. -/
  resp : List Response
  /-- The frames emitted so far, oldest first (R67). Log 2. -/
  out : List Frame
  deriving DecidableEq, Repr

/-- "The core raises no exception, fault, trap or error of any kind" (R200): no fault exists. Log 14. -/
inductive Fault : Type
  deriving DecidableEq, Repr

/-- Refusals. Nothing in this model raises one: every request in every state has a next state (R200). Log 14. -/
inductive Refusal where
  /-- The instruction has no meaning yet. Raised by no arm of `exec`; safe. -/
  | notModelled (mnemonic : String)
  deriving DecidableEq, Repr

/-! ## Reset (R47, R220) -/

/-- A reset channel record (R47). Log 8. -/
def Channel.reset : Channel :=
  { sfxId := none, offset := 0, phase := 0, canLoop := false, isMusic := false, prevKey := 24, prevVolume := 0 }

/-- The reset music record (R47). Log 8. -/
def Music.reset : Music :=
  { pattern := none, offset := 0, mask := 0, volume := 0, volumeStep := .fin 0, speed := -1, master := none, count := 0 }

/-- Tables nothing has filled yet. Log 4. -/
def Memory.unfilled : Memory := { hdrs := [], notes := [], songs := [] }

/-- The machine right after reset: every field as R47 says, the ports and the stream empty (R220). -/
def State.reset : State :=
  { ch := { ch0 := Channel.reset, ch1 := Channel.reset, ch2 := Channel.reset, ch3 := Channel.reset }
    mus := Music.reset
    env := { tables := Memory.unfilled, wave := [], maskZeroTest := Config.maskZeroTestTaken }
    port := []
    resp := []
    out := [] }

end Sys2Proof.Machine
end

