-- ==== Sys2Proof/Machine/Operands.lean ====
section
/-! DEFINITION. Operand forms: signed indices (R21, R30, R36), the exact numeric functions of 00_scope.md R9, and the
table records with their packing (R41 to R43, R64). -/

namespace Sys2Proof.Machine

/-! ## Signed indices -/

/-- The index a signed value names: `v` itself in `0..n-1`, none otherwise. -/
def asIndex (n : Nat) (v : Int) : Option (Fin n) :=
  if h : 0 ≤ v ∧ v < n then some ⟨v.toNat, by omega⟩ else none

/-- The signed value of an index field: -1 for none (R21, R30, R36). -/
def indexValue {n : Nat} : Option (Fin n) → Int
  | none => -1
  | some i => i.val

/-! ## Exact arithmetic (R8, R9) -/

/-- `floor(q)` (R9). -/
def floor (q : Rat) : Int := q.floor

/-- `trunc(q)`: the integer part, rounded toward zero (R9). -/
def trunc (q : Rat) : Int := q.num.tdiv q.den

/-- `qmod(a, m) = a - m * floor(a / m)` (R9). -/
def qmod (a m : Rat) : Rat := a - m * (floor (a / m) : Rat)

/-- `asr3(v) = floor(v / 8)`, the arithmetic right shift by three (R9, R191). -/
def asr3 (v : Int) : Int := v / Config.attenDivisor

/-- `clamp01(q)` on `Q-inf`; `clamp01(-inf) = 0` (R8, R9). -/
def clamp01 : QInf → Rat
  | .negInf => 0
  | .fin q => if q < 0 then 0 else if 1 < q then 1 else q

/-- `x / n` on `Q-inf` for a positive `n` (R8). -/
def QInf.divBy (n : Rat) : QInf → QInf
  | .negInf => .negInf
  | .fin q => .fin (q / n)

/-- `q + x` on `Q-inf` (R8). -/
def QInf.addTo (q : Rat) : QInf → QInf
  | .negInf => .negInf
  | .fin x => .fin (q + x)

/-- `x < 0` on `Q-inf`; `-inf` counts as negative (R8, R153). -/
def QInf.isNeg : QInf → Bool
  | .negInf => true
  | .fin q => decide (q < 0)

/-- The position step of one tick at a speed: `1 / (183 * speed)` (R151, R173). -/
def positionStep (speed : Rat) : Rat := 1 / (Config.div * speed)

/-! ## Table records (R41 to R43) and their packing (R64) -/

/-- The header `{speed, loopStart, loopEnd}` of a sound effect (R41, R61). -/
structure SfxHeader where
  speed : Fin 256
  loopStart : Fin 256
  loopEnd : Fin 256
  deriving DecidableEq, Repr

/-- A note `{key, volume, waveform, effect}` (R42, R62). -/
structure Note where
  key : Fin 64
  volume : Fin 8
  waveform : BitVec 4
  effect : Fin 8
  deriving DecidableEq, Repr

/-- One channel slot of a pattern (R43). -/
structure Slot where
  disabled : Bool
  sfx : Fin 64
  deriving DecidableEq, Repr

/-- A pattern row: four slots and three flags (R43, R63). -/
structure SongRow where
  slot0 : Slot
  slot1 : Slot
  slot2 : Slot
  slot3 : Slot
  startFlag : Bool
  loopFlag : Bool
  stopFlag : Bool
  deriving DecidableEq, Repr

/-- `row.slot[k]` (R43). -/
def SongRow.slot (r : SongRow) : Fin 4 → Slot
  | 0 => r.slot0
  | 1 => r.slot1
  | 2 => r.slot2
  | 3 => r.slot3

/-- The sfx header word: `[7:0] speed`, `[15:8] loopStart`, `[23:16] loopEnd` (R64). -/
def unpackHdr (w : BitVec 24) : SfxHeader :=
  { speed := (w.extractLsb' 0 8).toFin, loopStart := (w.extractLsb' 8 8).toFin, loopEnd := (w.extractLsb' 16 8).toFin }

/-- The note word: `[5:0] key`, `[8:6] waveform[2:0]`, `[11:9] volume`, `[14:12] effect`, `[15] waveform[3]` (R64). -/
def unpackNote (w : BitVec 16) : Note :=
  { key := (w.extractLsb' 0 6).toFin
    volume := (w.extractLsb' 9 3).toFin
    waveform := (w.extractLsb' 15 1 ++ w.extractLsb' 6 3 : BitVec (1 + 3))
    effect := (w.extractLsb' 12 3).toFin }

/-- Byte `k` of a song row: `[5:0] sfx`, `[6] disabled` (R64). -/
def unpackSlot (w : BitVec 32) (k : Nat) : Slot :=
  { disabled := w.getLsbD (8 * k + 6), sfx := (w.extractLsb' (8 * k) 6).toFin }

/-- The song row word: four slot bytes, whose bits 7 are startFlag, loopFlag, stopFlag and an ignored bit (R64). -/
def unpackRow (w : BitVec 32) : SongRow :=
  { slot0 := unpackSlot w 0
    slot1 := unpackSlot w 1
    slot2 := unpackSlot w 2
    slot3 := unpackSlot w 3
    startFlag := w.getLsbD 7
    loopFlag := w.getLsbD 15
    stopFlag := w.getLsbD 23 }

/-- The packed word of a header (R64). -/
def packHdr (h : SfxHeader) : BitVec 24 :=
  (BitVec.ofFin (w := 8) h.loopEnd ++ BitVec.ofFin (w := 8) h.loopStart ++ BitVec.ofFin (w := 8) h.speed :
    BitVec (8 + 8 + 8))

/-- The packed word of a note (R64). -/
def packNote (n : Note) : BitVec 16 :=
  (n.waveform.extractLsb' 3 1 ++ BitVec.ofFin (w := 3) n.effect ++ BitVec.ofFin (w := 3) n.volume ++
    n.waveform.extractLsb' 0 3 ++ BitVec.ofFin (w := 6) n.key : BitVec (1 + 3 + 3 + 3 + 6))

/-- The byte of a slot, with its flag bit (R64). -/
def packSlot (flag : Bool) (s : Slot) : BitVec 8 :=
  (BitVec.ofBool flag ++ BitVec.ofBool s.disabled ++ BitVec.ofFin (w := 6) s.sfx : BitVec (1 + 1 + 6))

/-- The packed word of a song row, the ignored bit 0 (R64). -/
def packRow (r : SongRow) : BitVec 32 :=
  (packSlot false r.slot3 ++ packSlot r.stopFlag r.slot2 ++ packSlot r.loopFlag r.slot1 ++
    packSlot r.startFlag r.slot0 : BitVec (8 + 8 + 8 + 8))

/-! ## Values computed from record fields -/

/-- `max(1, speed)`: the effective speed (R41, R147, R173). -/
def effectiveSpeed (h : SfxHeader) : Nat := max 1 h.speed.val

/-- The normalised volume `note.volume / 7` (R176). -/
def normalVolume (n : Note) : Rat := (n.volume.val : Rat) / Config.volMax

/-- ROUND applied to the exact product (R180, D4). -/
def roundSample (q : Rat) : Int :=
  match Config.round with
  | .towardZero => trunc q

/-- The sample conversion `trunc((3276799/100) * vol * w)` (R180). -/
def convert (vol w : Rat) : Int := roundSample (Config.fullScale * vol * w)

end Sys2Proof.Machine
end

