-- ==== Sys2Proof/Machine/Flags.lean ====
section
/-! DEFINITION. The flag computations. The core has two flags per channel, `canLoop` and `isMusic`, and no condition
codes (10_state.md R40); beside them, the channel mask of the sequencer (R32, R142) and the packed CH_FLAGS view (R46). -/

namespace Sys2Proof.Machine

/-- `Mask(c)`: the low four bits of `c`, or all channels when what MASK_ZERO_TEST tests is zero (R142, D12). -/
def maskOf (t : Config.MaskZeroTest) (c : Int) : BitVec 4 :=
  match t with
  | .operand => if c ≠ 0 then BitVec.ofInt 4 c else 0xF
  | .masked => if BitVec.ofInt 4 c ≠ 0 then BitVec.ofInt 4 c else 0xF

/-- Bit `k` of the mask stands for channel `k` (R32, D11). -/
def maskHas (m : BitVec 4) (k : Fin 4) : Bool := m.getLsbD k.val

/-- One bit of CH_FLAGS as an integer weight. -/
def flagWeight (b : Bool) (weight : Int) : Int := if b then weight else 0

/-- CH_FLAGS: bit `c` = `CH[c].canLoop`, bit `4 + c` = `CH[c].isMusic` (R46, register 14). -/
def chFlags (cs : Channels) : Int :=
  flagWeight cs.ch0.canLoop 1 + flagWeight cs.ch1.canLoop 2 + flagWeight cs.ch2.canLoop 4 +
    flagWeight cs.ch3.canLoop 8 + flagWeight cs.ch0.isMusic 16 + flagWeight cs.ch1.isMusic 32 +
    flagWeight cs.ch2.isMusic 64 + flagWeight cs.ch3.isMusic 128

end Sys2Proof.Machine
end

