-- ==== Sys2Proof/Machine/Ops.lean ====
section
/-! DEFINITION. The named operations over the state: channel records, table reads (R61 to R63), the waveform port
(R72, R73), triggering (R128), the frame stream (R67) and the response port (R100).

Taking an exception has no operation here, because the core takes none: "there are therefore no cause codes, no
faulting-address register, no trap vector, no saved state and no return-from-trap operation" (60_exceptions.md R200).
Its counterpart is `ignored`, the one effect of every malformed request (R201). -/

namespace Sys2Proof.Machine

/-! ## Channel records -/

/-- Read `CH[c]` (R10). -/
def Channels.get (cs : Channels) : Fin 4 → Channel
  | 0 => cs.ch0
  | 1 => cs.ch1
  | 2 => cs.ch2
  | 3 => cs.ch3

/-- Write `CH[c]` (R10). -/
def Channels.set (cs : Channels) (c : Fin 4) (v : Channel) : Channels :=
  match c with
  | 0 => { cs with ch0 := v }
  | 1 => { cs with ch1 := v }
  | 2 => { cs with ch2 := v }
  | 3 => { cs with ch3 := v }

/-- `CH[c]`. -/
def State.chan (s : State) (c : Fin 4) : Channel := s.ch.get c

/-- `CH[c] <- v`. -/
def State.setChan (s : State) (c : Fin 4) (v : Channel) : State := { s with ch := s.ch.set c v }

/-- `MUS <- m`. -/
def State.setMus (s : State) (m : Music) : State := { s with mus := m }

/-- `for k in 0..3`, in that order. -/
def forChannels (f : Fin 4 → State → State) (s : State) : State := f 3 (f 2 (f 1 (f 0 s)))

/-- The first channel, in the order 0, 1, 2, 3, that meets `p`. -/
def firstChannel (p : Fin 4 → Bool) : Option (Fin 4) :=
  if p 0 then some 0 else if p 1 then some 1 else if p 2 then some 2 else if p 3 then some 3 else none

/-- `CH[c].sfxId <- -1`, no other field changes (R122, R127, R153). -/
def idleChannel (c : Fin 4) (s : State) : State := s.setChan c { s.chan c with sfxId := none }

/-- The channel record `InitChannel` writes: all seven fields (R128). -/
def triggered (sfx : Fin 64) (off : Rat) (loop mus : Bool) : Channel :=
  { sfxId := some sfx, offset := off, phase := 0, canLoop := loop, isMusic := mus,
    prevKey := Config.prevKey0, prevVolume := 0 }

/-- `InitChannel(ch, s, off, loop, mus)` (R128). -/
def initChannel (c : Fin 4) (sfx : Fin 64) (off : Rat) (loop mus : Bool) (s : State) : State :=
  s.setChan c (triggered sfx off loop mus)

/-- What the core does with a malformed request: nothing, and no error (R95, R121, R201). -/
def ignored (s : State) : State := s

/-! ## The table spaces (R60 to R63) -/

/-- The record listed under key `k`. -/
def Sparse.find {w : Nat} : Sparse w → Nat → Option (BitVec w)
  | [], _ => none
  | (k0, v0) :: r, k => if k = k0 then some v0 else Sparse.find r k

/-- Write the record under key `k`, keeping the keys rising. -/
def Sparse.put {w : Nat} : Sparse w → Nat → BitVec w → Sparse w
  | [], k, v => [(k, v)]
  | (k0, v0) :: r, k, v =>
    if k < k0 then (k, v) :: (k0, v0) :: r
    else if k = k0 then (k, v) :: r
    else (k0, v0) :: Sparse.put r k v

/-- The keys are strictly rising, at least `lo` and below `bound`. -/
def Sparse.ordered {w : Nat} (bound : Nat) : Nat → Sparse w → Bool
  | _, [] => true
  | lo, (k, _) :: r => decide (lo ≤ k) && decide (k < bound) && Sparse.ordered bound (k + 1) r

/-- The canonical form of the tables: each space lists its records once, in rising order, inside its range (R60). -/
def Memory.wf (m : Memory) : Bool :=
  Sparse.ordered 64 0 m.hdrs && Sparse.ordered 2048 0 m.notes && Sparse.ordered 64 0 m.songs

/-- `SfxHdr(i)` as its packed word; a record the host never filled is a free value (R61, 93 item 13). -/
def Memory.hdrWord (m : Memory) (i : Fin 64) : BitVec 24 :=
  (Sparse.find m.hdrs i.val).getD (Config.unfilledHdr i.val)

/-- The key of note `n` of sound effect `i`. -/
def noteKey (i : Fin 64) (n : Fin 32) : Nat := 32 * i.val + n.val

/-- `SfxNote(i, n)` as its packed word (R62). No rule calls it with `n` outside 0..31; there it is free. Log 12. -/
def Memory.noteWord (m : Memory) (i : Fin 64) (n : Int) : BitVec 16 :=
  match asIndex 32 n with
  | some j => (Sparse.find m.notes (noteKey i j)).getD (Config.unfilledNote (noteKey i j))
  | none => Config.unfilledNote (2048 + n.toNat)

/-- `SongRow(p)` as its packed word (R63). -/
def Memory.songWord (m : Memory) (p : Fin 64) : BitVec 32 :=
  (Sparse.find m.songs p.val).getD (Config.unfilledSong p.val)

/-- `SfxHdr(i)` (R61). -/
def Memory.sfxHdr (m : Memory) (i : Fin 64) : SfxHeader := unpackHdr (m.hdrWord i)

/-- `SfxNote(i, n)` (R62). -/
def Memory.sfxNote (m : Memory) (i : Fin 64) (n : Int) : Note := unpackNote (m.noteWord i n)

/-- `SongRow(p)` (R63). -/
def Memory.songRow (m : Memory) (p : Fin 64) : SongRow := unpackRow (m.songWord p)

/-- The host's write of one record (R76, R224). Log 5. -/
def Memory.write (m : Memory) : TableWrite → Memory
  | .hdr i v => { m with hdrs := Sparse.put m.hdrs i.val v }
  | .note i n v => { m with notes := Sparse.put m.notes (noteKey i n) v }
  | .song p v => { m with songs := Sparse.put m.songs p.val v }

/-- The host changes a table between two requests (R76, R224). Log 5. -/
def hostWrite (t : TableWrite) (s : State) : State :=
  { s with env := { s.env with tables := s.env.tables.write t } }

/-! ## The waveform port (R72, R73) -/

/-- The first piece that describes waveform `id` at phase `p` within the cycle. Log 6. -/
def pieceAt (id : BitVec 4) (p : Nat) : List WavePiece → Option WavePiece
  | [] => none
  | w :: r => if w.id = id ∧ w.lo ≤ p ∧ p < w.hi then some w else pieceAt id p r

/-- The unit interval of W2 (R73): the nearest value in [-1, 1]. -/
def clampUnit (q : Rat) : Rat := if q < -1 then -1 else if 1 < q then 1 else q

/-- `Wave(id, ph)`: total (W1), within [-1, 1] (W2), of period 2^32 (W3), and otherwise whatever the environment
describes, or free (R72, R73). Log 6. -/
def waveAt (e : Env) (id : BitVec 4) (ph : Nat) : Rat :=
  clampUnit
    (match pieceAt id (ph % Config.cycle) e.wave with
     | some w => w.base + w.slope * ((ph % Config.cycle - w.lo : Nat) : Rat)
     | none => Config.wave id (ph % Config.cycle))

/-! ## The frame stream and the response port -/

/-- The frame of a mono sample: the same 16 bits twice (R67, R192). -/
def frameOf (a : Int) : Frame := (u16 a ++ u16 a : BitVec (16 + 16))

/-- `Emit(f)` appends one frame (R10, R67). -/
def emit (f : Frame) (s : State) : State := { s with out := s.out ++ [f] }

/-- The bytes of a frame a host stores, least significant first (R68, D20). Host memory is outside the model. -/
def frameBytes (f : Frame) : List (BitVec 8) :=
  [f.extractLsb' 0 8, f.extractLsb' 8 8, f.extractLsb' 16 8, f.extractLsb' 24 8]

/-- `Respond(v)` places one value on the response port (R100, R196). -/
def respond (v : Response) (s : State) : State := { s with resp := s.resp ++ [v] }

end Sys2Proof.Machine
end

