-- ==== Sys2Proof/Machine/Sequencer.lean ====
section
/-! DEFINITION. The music sequencer's internal operations `ACTIVATE` and `ADVANCE` (41_music_sequencer.md R145 to
R156). -/

namespace Sys2Proof.Machine

/-! ## ACTIVATE (R145 to R149) -/

/-- One slot of the master scan: a disabled slot is skipped (R146), an enabled one replaces the best on strict
improvement of the raw speed (R147). -/
def pickStep (m : Memory) (row : SongRow) (k : Fin 4) (best : Option (Fin 4)) : Option (Fin 4) :=
  if (row.slot k).disabled then best
  else
    match best with
    | none => some k
    | some j => if (m.sfxHdr (row.slot k).sfx).speed < (m.sfxHdr (row.slot j).sfx).speed then some k else some j

/-- Master selection: the enabled slot of smallest raw speed, lowest index among equals (R147). -/
def pickMaster (m : Memory) (row : SongRow) : Option (Fin 4) :=
  pickStep m row 3 (pickStep m row 2 (pickStep m row 1 (pickStep m row 0 none)))

/-- `MUS.speed` for a master: `max(1, speed)` of its sound effect, -1 when there is none (R35, R147). -/
def masterSpeed (m : Memory) (row : SongRow) : Option (Fin 4) → Int
  | none => -1
  | some k => (effectiveSpeed (m.sfxHdr (row.slot k).sfx) : Int)

/-- Triggering: every channel in the mask whose slot is enabled is initialised, in order, with no duplicate
elimination (R148, conflict C3). -/
def triggerRow (row : SongRow) : State → State :=
  forChannels fun k s =>
    if maskHas s.mus.mask k ∧ (row.slot k).disabled = false then initChannel k (row.slot k).sfx 0 false true s else s

/-- `ACTIVATE(p)` for a pattern `p` of the table: position, master selection, triggering (R145). -/
def activateRow (p : Fin 64) (s : State) : State :=
  triggerRow (s.env.tables.songRow p)
    (s.setMus
      { s.mus with
        pattern := some p
        offset := 0
        master := pickMaster s.env.tables (s.env.tables.songRow p)
        speed := masterSpeed s.env.tables (s.env.tables.songRow p) (pickMaster s.env.tables (s.env.tables.songRow p)) })

/-- `ACTIVATE(-1)`: no row, no master, nothing triggered and nothing idled (R149, D13). -/
def deactivate (s : State) : State :=
  s.setMus { s.mus with pattern := none, offset := 0, master := none, speed := -1 }

/-- `ACTIVATE(p)`, `p` in -1..64. Outside 0..63 there is no row; 64 is the pattern after 63, and PATTERN_OVERRUN says
it is treated as -1 (R145, R149, D14). -/
def activate (p : Int) (s : State) : State :=
  match asIndex 64 p with
  | some i => activateRow i s
  | none =>
    match Config.patternOverrun with
    | .stop => deactivate s

/-! ## ADVANCE (R150 to R156) -/

/-- The fade volume after one step: `clamp01(volume + volumeStep / 22050)` (R152). -/
def fadeVolume (volume : Rat) (step : QInf) : Rat := clamp01 (QInf.addTo volume (QInf.divBy Config.fs step))

/-- Steps 1 and 2 of `ADVANCE`: position and fade (R151, R152). -/
def advancePosition (s : State) : State :=
  s.setMus
    { s.mus with
      offset := s.mus.offset + positionStep (s.mus.speed : Rat)
      volume := fadeVolume s.mus.volume s.mus.volumeStep }

/-- Step 3: every music channel is idled and the music is stopped (R153). -/
def finishFadeOut (s : State) : State :=
  let s1 := forChannels (fun k s => if (s.chan k).isMusic then idleChannel k s else s) s
  s1.setMus { s1.mus with pattern := none }

/-- Pattern `i` has its start flag (R155). -/
def startsAt (m : Memory) (i : Nat) : Bool :=
  match asIndex 64 (i : Int) with
  | some p => (m.songRow p).startFlag
  | none => false

/-- The loop scan of R155: from `i` down to the nearest pattern with its start flag, or 0. -/
def loopScan (m : Memory) : Nat → Nat
  | 0 => 0
  | i + 1 => if startsAt m (i + 1) then i + 1 else loopScan m i

/-- Step 4, the end of pattern `p`: the stop flag wins over the loop flag; `count` grows except on the stop branch
(R154, R155, R156). -/
def endPattern (p : Fin 64) (s : State) : State :=
  let row := s.env.tables.songRow p
  if row.stopFlag then activate (-1) s
  else
    let next : Int := if row.loopFlag then (loopScan s.env.tables p.val : Nat) else (p.val : Int) + 1
    activate next (s.setMus { s.mus with count := s.mus.count + 1 })

/-- A fade-out is complete: `volumeStep < 0` and `volume <= 0` (R38, R153). -/
def fadeOutDone (m : Music) : Bool := m.volumeStep.isNeg && decide (m.volume ≤ 0)

/-- `ADVANCE()` with `MUS.pattern = p` (R150): fade-out completion is tested before the end of the pattern (R153). -/
def advance (p : Fin 64) (s : State) : State :=
  let s1 := advancePosition s
  if fadeOutDone s1.mus then finishFadeOut s1
  else if Config.nnote ≤ s1.mus.offset then endPattern p s1
  else s1

end Sys2Proof.Machine
end

