-- ==== Sys2Proof/Machine/Synth.lean ====
section
/-! DEFINITION. `SAMPLECH(c)`, the per-channel sample synthesizer (42_sample_synthesizer.md R170 to R183). The
document asks for "a two-phase step": the sequencer hook, then this channel's sample (R171). -/

namespace Sys2Proof.Machine

/-- Step 1: the sequencer runs when `c` is the master and music plays; the gate is tested once (R150, R171). -/
def sequencerHook (c : Fin 4) (s : State) : State :=
  match s.mus.pattern with
  | some p => if s.mus.master = some c then advance p s else s
  | none => s

/-- Step 4: the loop-range wrap of the next position (R174). -/
def loopWrap (h : SfxHeader) (canLoop : Bool) (nxt : Rat) : Rat :=
  if h.loopStart < h.loopEnd ∧ (h.loopStart.val : Rat) ≤ nxt ∧ canLoop = true then
    qmod (nxt - (h.loopStart.val : Rat)) ((h.loopEnd.val : Rat) - (h.loopStart.val : Rat)) + (h.loopStart.val : Rat)
  else nxt

/-- Steps 3 and 4: the position after this tick (R173, R174). -/
def nextOffset (h : SfxHeader) (ch : Channel) : Rat :=
  loopWrap h ch.canLoop (ch.offset + positionStep (effectiveSpeed h : Rat))

/-- `Book`: the end-of-tick bookkeeping, the same on both paths (R177). -/
def book (nxt : Rat) (note : Note) (ch : Channel) : Channel :=
  if Config.nnote ≤ nxt then { ch with offset := nxt, sfxId := none }
  else if floor nxt ≠ floor ch.offset then
    { ch with offset := nxt, prevKey := note.key, prevVolume := normalVolume note }
  else { ch with offset := nxt }

/-- The note under the position before the advance (R175). The `effect` field changes nothing (R183). -/
def currentNote (m : Memory) (sfx : Fin 64) (ch : Channel) : Note := m.sfxNote sfx (floor ch.offset)

/-- Steps 3 to 7 for a channel that plays `sfx`: its next record and its sample (R173 to R181). -/
def playChannel (e : Env) (sfx : Fin 64) (ch : Channel) : Channel × Int :=
  let note := currentNote e.tables sfx ch
  let nxt := nextOffset (e.tables.sfxHdr sfx) ch
  if normalVolume note = 0 then (book nxt note ch, 0)
  else
    (book nxt note { ch with phase := ch.phase + Config.phaseInc note.key },
      convert (normalVolume note) (waveAt e note.waveform ch.phase))

/-- Steps 2 to 7: an idle channel is silent and does not move (R172). -/
def synth (c : Fin 4) (s : State) : State × Int :=
  match (s.chan c).sfxId with
  | none => (s, 0)
  | some sfx => (s.setChan c (playChannel s.env sfx (s.chan c)).1, (playChannel s.env sfx (s.chan c)).2)

/-- `SAMPLECH(c)`: the next state and one sample (R170). -/
def sampleCh (c : Fin 4) (s : State) : State × Int := synth c (sequencerHook c s)

end Sys2Proof.Machine
end

