-- ==== Sys2Proof/Machine/Fill.lean ====
section
/-! DEFINITION. `TICK` and the request `FILL` (43_mixer_fill.md R190 to R195). -/

namespace Sys2Proof.Machine

/-- The channel loop of a tick: each channel is evaluated once, its sample shifted and added (R190, R191). -/
def mixFrom : List (Fin 4) → State → Int → State × Int
  | [], s, acc => (s, acc)
  | c :: cs, s, acc => mixFrom cs (sampleCh c s).1 (acc + asr3 (sampleCh c s).2)

/-- The four channels of one tick in the order CH_ORDER, and the accumulator (R190, R191). -/
def mix (s : State) : State × Int := mixFrom Config.chOrder s 0

/-- `TICK()`: one frame (R190, R192). -/
def tick (s : State) : State := emit (frameOf (mix s).2) (mix s).1

/-- `repeat n times: TICK()` (R193). -/
def ticks : Nat → State → State
  | 0, s => s
  | n + 1, s => ticks n (tick s)

/-- `FILL bv, n`: with `bv = 0`, the null buffer, nothing happens (R193, R194). It never fails (R200). -/
def execFill (bv : Bool) (n : Nat) (s : State) : Host.Outcome State Fault Refusal :=
  .next (if bv then ticks n s else ignored s)

end Sys2Proof.Machine
end

