-- ==== Sys2Proof/Machine/Music.lean ====
section
/-! DEFINITION. The request `MUSIC` (41_music_sequencer.md R140 to R144). -/

namespace Sys2Proof.Machine

/-- `volumeStep` of a fade-out over `b` milliseconds from `volume` (R141). -/
def fadeOutStep (volume : Rat) (b : Int) : QInf :=
  if b ≤ 0 then .negInf else .fin (-volume * 1000 / (b : Rat))

/-- The fade-out path, `a = -1`: only `volumeStep` is written (R141). -/
def musicFadeOut (b : Int) (s : State) : State :=
  s.setMus { s.mus with volumeStep := fadeOutStep s.mus.volume b }

/-- The volume a start leaves: 0 for a fade-in, else 1 (R143). -/
def startVolume (b : Int) : Rat := if 0 < b then 0 else 1

/-- The `volumeStep` a start leaves: `1000 / b` for a fade-in, else 0 (R143). -/
def startVolumeStep (b : Int) : QInf := if 0 < b then .fin (1000 / (b : Rat)) else .fin 0

/-- The start path, `0 <= a <= 63`: count, mask, fade, activation (R142, R143, R144). -/
def musicStart (a b c : Int) (s : State) : State :=
  activate a
    (s.setMus
      { s.mus with
        count := 0
        mask := maskOf s.env.maskZeroTest c
        volume := startVolume b
        volumeStep := startVolumeStep b })

/-- The whole request: the range check on the pattern, then one of the two paths (R140). -/
def musicRequest (a b c : Int) (s : State) : State :=
  if a < -1 ∨ 63 < a then ignored s
  else if a = -1 then musicFadeOut b s
  else musicStart a b c s

/-- `MUSIC a, b, c` (R140). It never fails (R200). -/
def execMusic (a b c : Int) (s : State) : Host.Outcome State Fault Refusal := .next (musicRequest a b c s)

end Sys2Proof.Machine
end

