-- ==== Sys2Proof/Machine/Sfx.lean ====
section
/-! DEFINITION. The request `SFX` (40_sfx_allocator.md): range check, stop, stop-loop, and the play path. -/

namespace Sys2Proof.Machine


/-- The stop path, `a = -1` (R122). -/
def sfxStop (b : Int) (s : State) : State :=
  match asIndex 4 b with
  | some ch => idleChannel ch s
  | none => ignored s

/-- The stop-loop path, `a = -2` (R123). -/
def sfxStopLoop (b : Int) (s : State) : State :=
  match asIndex 4 b with
  | some ch => s.setChan ch { s.chan ch with canLoop := false }
  | none => ignored s

/-- Pass 1 accepts an idle channel, or one already playing `a` (R125). -/
def pass1Accepts (a : Fin 64) (ch : Channel) : Bool := decide (ch.sfxId = none) || decide (ch.sfxId = some a)

/-- Pass 2 keeps `ch` unless channel `i` has a strictly smaller `sfxId` (R126). -/
def pass2Step (s : State) (i ch : Fin 4) : Fin 4 :=
  if indexValue (s.chan i).sfxId < indexValue (s.chan ch).sfxId then i else ch

/-- Pass 2: the channel whose `sfxId` is smallest, the lowest index among equals (R126). -/
def pass2 (s : State) : Fin 4 := pass2Step s 3 (pass2Step s 2 (pass2Step s 1 0))

/-- `SelectChannel(a, b)` (R124, R125, R126). -/
def selectChannel (a : Fin 64) (b : Int) (s : State) : Fin 4 :=
  match asIndex 4 b with
  | some ch => ch
  | none =>
    match firstChannel (fun i => pass1Accepts a (s.chan i)) with
    | some ch => ch
    | none => pass2 s

/-- Duplicate elimination: every channel other than `ch` that plays `a` is idled (R127). -/
def eliminateDuplicates (ch : Fin 4) (a : Fin 64) : State → State :=
  forChannels fun i s => if i ≠ ch ∧ (s.chan i).sfxId = some a then idleChannel i s else s

/-- The play path, `0 <= a <= 63` (R120, R124 to R128). -/
def sfxPlay (a : Fin 64) (b c : Int) (s : State) : State :=
  initChannel (selectChannel a b s) a ((max 0 c : Int) : Rat) true false
    (eliminateDuplicates (selectChannel a b s) a s)

/-- The whole request, in the order of R120. The range check of R121 comes first and covers all three operands; a
negative `c` passes it (D9, conflict C2). -/
def sfxRequest (a b c : Int) (s : State) : State :=
  if a < -2 ∨ 63 < a ∨ b < -1 ∨ 3 < b ∨ 31 < c then ignored s
  else if a = -1 then sfxStop b s
  else if a = -2 then sfxStopLoop b s
  else
    match asIndex 64 a with
    | some sfx => sfxPlay sfx b c s
    | none => ignored s

/-- `SFX a, b, c` (R120). It never fails (R200). -/
def execSfx (a b c : Int) (s : State) : Host.Outcome State Fault Refusal := .next (sfxRequest a b c s)

end Sys2Proof.Machine
end

