-- ==== Sys2Proof/Machine/Stat.lean ====
section
/-! DEFINITION. The request `STAT` and the STAT view (44_stat.md R196, 10_state.md R46). -/

namespace Sys2Proof.Machine

/-- CHn_NOTE: the note index of a playing channel, else -1 (R46, registers 4..7). -/
def channelNote (ch : Channel) : Int :=
  match ch.sfxId with
  | some _ => floor ch.offset
  | none => -1

/-- MUS_NOTE: the note index of the song, or -1 when stopped (R46, register 10). -/
def musicNote (m : Music) : Int :=
  match m.pattern with
  | some _ => floor m.offset
  | none => -1

/-- `StatReg(r)`: the STAT view, register 15 and up reserved as 0 (R46). -/
def statReg (s : State) : Nat → Int
  | 0 => indexValue s.ch.ch0.sfxId
  | 1 => indexValue s.ch.ch1.sfxId
  | 2 => indexValue s.ch.ch2.sfxId
  | 3 => indexValue s.ch.ch3.sfxId
  | 4 => channelNote s.ch.ch0
  | 5 => channelNote s.ch.ch1
  | 6 => channelNote s.ch.ch2
  | 7 => channelNote s.ch.ch3
  | 8 => indexValue s.mus.pattern
  | 9 => (s.mus.count.toNat : Int)
  | 10 => musicNote s.mus
  | 11 => (s.mus.mask.toNat : Int)
  | 12 => indexValue s.mus.master
  | 13 => s.mus.speed
  | 14 => chFlags s.ch
  | _ => 0

/-- The response to `STAT r`: 0 outside 0..14 (R196). -/
def statValue (s : State) (r : Int) : Response := if 0 ≤ r ∧ r ≤ 14 then u16 (statReg s r.toNat) else u16 0

/-- `STAT r`: one response, no other effect (R196). It never fails (R200). -/
def execStat (r : Int) (s : State) : Host.Outcome State Fault Refusal := .next (respond (statValue s r) s)

end Sys2Proof.Machine
end

