-- ==== Sys2Proof/Machine/Dispatch.lean ====
section
/-! DEFINITION. One arm per request (opcode_table.json). -/

namespace Sys2Proof.Machine

def exec (i : Instr) (s : State) : Host.Outcome State Fault Refusal :=
  match i with
  | .sfx a b c => Sys2Proof.Machine.execSfx a b c s
  | .music a b c => Sys2Proof.Machine.execMusic a b c s
  | .fill bv n => Sys2Proof.Machine.execFill bv n s
  | .stat r => Sys2Proof.Machine.execStat r s

end Sys2Proof.Machine
end

