-- ==== Sys2Proof/Machine/Port.lean ====
section
/-! DEFINITION. The request port (30_encoding.md R90): taking the next port event, and placing a word on it. -/

namespace Sys2Proof.Machine

/-- The port accepts its next event, if the host has one; the rest stays pending (R90, R223). Log 1. -/
def accept (s : State) : Option (PortEvent × State) :=
  match s.port with
  | [] => none
  | e :: rest => some (e, { s with port := rest })

/-- "A reserved word is accepted and has no effect" (R95), whichever reason it is reserved for. -/
def acceptReserved (_why : Reserved) (s : State) : State := ignored s

/-- The host presents `w` next. -/
def present (w : RequestWord) (s : State) : State := { s with port := .request w :: s.port }

end Sys2Proof.Machine
end

