-- ==== Sys2Proof/Machine/Step.lean ====
section
/-! DEFINITION. One step: the core accepts one port event and runs it to completion (30_encoding.md R90, R11, R74).
With nothing pending it is idle and all state survives (60_exceptions.md R210). -/

namespace Sys2Proof.Machine

/-- One step of the machine. Every state has exactly one next state (R200). Log 1, log 5. -/
def step (s : State) : Host.Outcome State Fault Refusal :=
  match accept s with
  | none => .next s
  | some (.table t, s1) => .next (hostWrite t s1)
  | some (.request w, s1) =>
    match decode w with
    | .request i => exec i s1
    | .reserved why => .next (acceptReserved why s1)

/-- `s` with the instruction of `nbits` table bits `w` as the very next request on the port. Log 1, log 18. -/
def State.withFetchWord (s : State) (nbits w : Nat) : State := present (tableWord nbits w) s

end Sys2Proof.Machine
end

