-- ==== Sys2Proof/Safety.lean ====
section
/-! DEFINITION. What a good state is (10_state.md R29, R38, 70_reset_and_hazards.md R228), what a request leaves alone,
and when two states are the same to the host. -/

namespace Sys2Proof.Machine

/-! ## The invariant -/

/-- A channel record between operations (R22, R27, R29, R228): the offset is never negative and stays below 32 plus
one step, below 32 while playing; `prevVolume` is some `k/7`. -/
abbrev Channel.Ok (ch : Channel) : Prop :=
  0 ≤ ch.offset ∧ ch.offset < 32 + 1 / 183 ∧ (ch.sfxId ≠ none → ch.offset < 32) ∧
    ∃ k : Fin 8, ch.prevVolume = (k.val : Rat) / 7

/-- The music record between operations (R33, R35, R38, R228). -/
abbrev Music.Ok (m : Music) : Prop :=
  0 ≤ m.volume ∧ m.volume ≤ 1 ∧ (m.master = none ↔ m.speed = -1) ∧ (m.speed = -1 ∨ (1 ≤ m.speed ∧ m.speed ≤ 255)) ∧
    0 ≤ m.offset ∧ m.offset < 32 + 1 / 183 ∧ (m.pattern ≠ none → m.offset < 32)

/-- The invariant of the machine: every channel and the music record are good, and the tables are in canonical
form. -/
abbrev State.Inv (s : State) : Prop :=
  (∀ c : Fin 4, (s.chan c).Ok) ∧ s.mus.Ok ∧ s.env.tables.wf = true

/-- "The condition a host may treat as the end of all sound" (R230). -/
abbrev State.Silent (s : State) : Prop := (∀ c : Fin 4, (s.chan c).sfxId = none) ∧ s.mus.pattern = none

/-! ## Frames -/

/-- Everything but the channel records is as before: the music record, every table record and the rest of what the
core is given, the port, the responses and the frames. -/
abbrev OnlyChannelsChange (s t : State) : Prop :=
  t.mus = s.mus ∧ t.env = s.env ∧ t.port = s.port ∧ t.resp = s.resp ∧ t.out = s.out

/-- Everything but the channel and music records is as before. -/
abbrev OnlyCoreChanges (s t : State) : Prop :=
  t.env = s.env ∧ t.port = s.port ∧ t.resp = s.resp ∧ t.out = s.out

/-- `STAT r` in state `s` answers `v` and does nothing else. -/
abbrev StatAnswers (s : State) (r : Int) (v : Response) : Prop :=
  exec (.stat r) s = .next { s with resp := s.resp ++ [v] }

/-! ## States the host cannot tell apart -/

/-- Apply `f` to each channel record. -/
def State.mapChannels (f : Channel → Channel) (s : State) : State :=
  { s with ch := { ch0 := f s.ch.ch0, ch1 := f s.ch.ch1, ch2 := f s.ch.ch2, ch3 := f s.ch.ch3 } }

/-- Forget `prevKey` and `prevVolume`, "written but never read elsewhere in this core" (R26). -/
def Channel.forgetPrev (ch : Channel) : Channel := { ch with prevKey := 0, prevVolume := 0 }

/-- Keep only `phase mod 2^32` (R23). -/
def Channel.forgetCycles (ch : Channel) : Channel := { ch with phase := ch.phase % 4294967296 }

/-- `s` and `t` agree when each channel record is seen through `f`. -/
abbrev SameThrough (f : Channel → Channel) (s t : State) : Prop := s.mapChannels f = t.mapChannels f

/-- `s` and `t` differ at most in the reset values that D23 chooses: both are silent, with the same inputs and the
same frames so far (R47, R48). -/
abbrev DifferInResetChoices (s t : State) : Prop :=
  s.Silent ∧ t.Silent ∧ s.env = t.env ∧ s.port = t.port ∧ s.out = t.out

/-! ## Rules written out, for the statements to compare the operations with -/

/-- The position and volume after steps 1 and 2 of `ADVANCE`, written out (R151, R152). -/
def advancedMusic (m : Music) : Music :=
  { m with
    offset := m.offset + 1 / (183 * (m.speed : Rat))
    volume := match m.volumeStep with
      | .negInf => 0
      | .fin q => max 0 (min 1 (m.volume + q / 22050)) }

/-- The completion test of step 3, written out (R153): `volumeStep < 0`, -inf included, and volume at 0. -/
def fadesOut (m : Music) : Prop :=
  (m.volumeStep = .negInf ∨ ∃ q : Rat, q < 0 ∧ m.volumeStep = .fin q) ∧ m.volume ≤ 0

/-- The position after one evaluation, written out (R173, R174). -/
def steppedOffset (h : SfxHeader) (ch : Channel) : Rat :=
  let nxt : Rat := ch.offset + 1 / (183 * max 1 (h.speed.val : Rat))
  let ls : Rat := (h.loopStart.val : Rat)
  let le : Rat := (h.loopEnd.val : Rat)
  if ls < le ∧ ls ≤ nxt ∧ ch.canLoop = true then (nxt - ls) - (le - ls) * (⌊(nxt - ls) / (le - ls)⌋ : Rat) + ls else nxt

end Sys2Proof.Machine
end

