-- ==== Sys2Proof/Certificates/Slice0/Obligations.lean ====
section
/-! DEFINITION. The statements for the provers, from the spec's numbered rules. Each docstring names the rule; where a
clause rests on one of the spec's own decisions (92_eei_decisions.md) or on a choice of the model's log, it says so. -/

open Sys2Proof Sys2Proof.Machine

/-! ## Encoding (30_encoding.md) -/

/-- The thirteen worked encodings of R99 decode to their requests. The encoding is the spec's decision D7. -/
def Obligations.WorkedEncodingsDecode : Prop :=
  decode 0x01000005FFFF0000 = .request (.sfx 5 (-1) 0) ∧
  decode 0x0100FFFF00020000 = .request (.sfx (-1) 2 0) ∧
  decode 0x0100FFFE00030000 = .request (.sfx (-2) 3 0) ∧
  decode 0x0100003F0003001F = .request (.sfx 63 3 31) ∧
  decode 0x0200000003E80000 = .request (.music 0 1000 0) ∧
  decode 0x0200FFFF00000000 = .request (.music (-1) 0 0) ∧
  decode 0x0200000300000005 = .request (.music 3 0 5) ∧
  decode 0x03010000000003E8 = .request (.fill true 1000) ∧
  decode 0x03000000000003E8 = .request (.fill false 1000) ∧
  decode 0x03010000000016E0 = .request (.fill true 5856) ∧
  decode 0x0400000900000000 = .request (.stat 9) ∧
  (∃ r, decode 0x0000000000000000 = .reserved r) ∧
  (∃ r, decode 0x01010005FFFF0000 = .reserved r)

/-- Every operand of every well-formed request survives encoding and decoding (R93, R97; D7). -/
def Obligations.DecodeInvertsEncode : Prop := ∀ i : Instr, i.wf = true → decode (encode i) = .request i

/-- Each word has one meaning: a word that decodes to a request is that request's encoding, and the request is well
formed (R94, R96, R97; D7). -/
def Obligations.EncodeInvertsDecode : Prop :=
  ∀ (w : RequestWord) (i : Instr), decode w = .request i → i.wf = true ∧ encode i = w

/-- Which words are reserved, and that a reserved word is accepted and has no effect (R95; the spec's decision
D24). -/
def Obligations.ReservedWordsAreAcceptedAndIgnored : Prop :=
  ∀ w : RequestWord,
    ((∃ r, decode w = .reserved r) ↔
      (opField w ≠ 0x01 ∧ opField w ≠ 0x02 ∧ opField w ≠ 0x03 ∧ opField w ≠ 0x04) ∨
      ((opField w = 0x01 ∨ opField w = 0x02 ∨ opField w = 0x04) ∧ zField w ≠ 0) ∨
      (opField w = 0x03 ∧ (z1Field w ≠ 0 ∨ z2Field w ≠ 0)) ∨
      (opField w = 0x04 ∧ (bField w ≠ 0 ∨ cField w ≠ 0))) ∧
    ∀ (s : State) (rest : List PortEvent), (∃ r, decode w = .reserved r) →
      step { s with port := .request w :: rest } = .next { s with port := rest }

/-- R98: each pseudo-request is a spelling of one real request (D7). -/
def Obligations.PseudoRequestsExpand : Prop :=
  ∀ v : Int, ∀ n : Nat,
    (Pseudo.sfxStop v).expand = .sfx (-1) v 0 ∧ (Pseudo.sfxNoLoop v).expand = .sfx (-2) v 0 ∧
    (Pseudo.sfxPlay v).expand = .sfx v (-1) 0 ∧ Pseudo.musicStop.expand = .music (-1) 0 0 ∧
    (Pseudo.musicFadeout v).expand = .music (-1) v 0 ∧ (Pseudo.musicPlay v).expand = .music v 0 0 ∧
    (Pseudo.fill n).expand = .fill true n

/-! ## The step (R11, R74, R90, R200, R210) -/

/-- A step runs the decoded request: the port gives up the word, then exactly `exec` of the request runs; and the
word that `withFetchWord` places is the very next request. The port as a list is the model's (log 1). -/
def Obligations.StepRunsTheDecodedRequest : Prop :=
  (∀ (w : RequestWord) (i : Instr) (s : State) (rest : List PortEvent), decode w = .request i →
    step { s with port := .request w :: rest } = exec i { s with port := rest }) ∧
  ∀ (nbits w : Nat) (i : Instr) (s : State), decodeTableWord nbits w = some i →
    step (s.withFetchWord nbits w) = exec i s

/-- R200: the step is total, "every request in every state has exactly one next state". -/
def Obligations.EveryStateHasANextState : Prop :=
  (∀ s : State, ∃ t, step s = .next t) ∧ ∀ (i : Instr) (s : State), ∃ t, exec i s = .next t

/-- R210: with no request on the port the core is idle and all state survives (the port as a list: log 1). -/
def Obligations.IdleCoreKeepsAllState : Prop := ∀ s : State, s.port = [] → step s = .next s

/-- R76, R224: a table change between two requests is what the next request reads, and changes nothing else. That the
change arrives as a port event is the model's (log 5). -/
def Obligations.HostTableChangeIsSeenNext : Prop :=
  ∀ (s : State) (rest : List PortEvent) (t : TableWrite),
    ∃ u, step { s with port := .table t :: rest } = .next u ∧
      u.ch = s.ch ∧ u.mus = s.mus ∧ u.port = rest ∧ u.resp = s.resp ∧ u.out = s.out ∧
      u.env.wave = s.env.wave ∧ u.env.maskZeroTest = s.env.maskZeroTest ∧
      (∀ j : Fin 64, u.env.tables.sfxHdr j =
        match t with
        | .hdr i v => if j = i then unpackHdr v else s.env.tables.sfxHdr j
        | _ => s.env.tables.sfxHdr j) ∧
      (∀ (j : Fin 64) (k : Fin 32), u.env.tables.sfxNote j k.val =
        match t with
        | .note i n v => if j = i ∧ k = n then unpackNote v else s.env.tables.sfxNote j k.val
        | _ => s.env.tables.sfxNote j k.val) ∧
      ∀ q : Fin 64, u.env.tables.songRow q =
        match t with
        | .song p v => if q = p then unpackRow v else s.env.tables.songRow q
        | _ => s.env.tables.songRow q

/-- R64: the packing loses nothing: every header, note and song row survives packing and unpacking (the packing is
the spec's decision D18). -/
def Obligations.TablePackingLosesNothing : Prop :=
  (∀ h : SfxHeader, unpackHdr (packHdr h) = h) ∧ (∀ n : Note, unpackNote (packNote n) = n) ∧
    (∀ r : SongRow, unpackRow (packRow r) = r) ∧
    (∀ w : BitVec 24, packHdr (unpackHdr w) = w) ∧ ∀ w : BitVec 16, packNote (unpackNote w) = w

/-- The canonical form of the tables: two table memories in it that list the same records are the same data, and every
host write keeps it. The form is the model's (log 3). Reading the same is less than listing the same: a record listed
with the very word an unlisted one reads as (log 4) is other data. -/
def Obligations.TablesHaveOneCanonicalForm : Prop :=
  (∀ m n : Memory, m.wf = true → n.wf = true →
    (∀ k, Sparse.find m.hdrs k = Sparse.find n.hdrs k) → (∀ k, Sparse.find m.notes k = Sparse.find n.notes k) →
    (∀ k, Sparse.find m.songs k = Sparse.find n.songs k) → m = n) ∧
  ∀ (m : Memory) (t : TableWrite), m.wf = true → (m.write t).wf = true

/-! ## Reset (10_state.md R47, 70_reset_and_hazards.md R220, R221) -/

/-- R47, R220: every field's reset value. The document fixes only the idle values; the others are the spec's decision
D23 (log 8). -/
def Obligations.ResetLeavesTheStatedValues : Prop :=
  (∀ c : Fin 4, State.reset.chan c =
    { sfxId := none, offset := 0, phase := 0, canLoop := false, isMusic := false, prevKey := 24, prevVolume := 0 }) ∧
  State.reset.mus =
    { pattern := none, offset := 0, mask := 0, volume := 0, volumeStep := .fin 0, speed := -1, master := none, count := 0 } ∧
  State.reset.port = [] ∧ State.reset.resp = [] ∧ State.reset.out = []

/-- The reset state meets the invariant of Safety.lean (R29, R38, R228). The reset values other than `sfxId` and
`pattern` are the spec's decision D23 (log 8); the clause on the tables' canonical form is the model's own (log 3), and
that `prevVolume` is some `k/7` rests on the spec's decision D15 (log 15). -/
def Obligations.ResetMeetsTheInvariant : Prop := State.reset.Inv

/-- Every step keeps the invariant: offsets in range, playing channels below 32, volume in [0, 1], master and speed
-1 together (R29, R33, R35, R38, R228). Two clauses are no rule of the document: that the tables are in canonical form
is the model's own (log 3), and that `prevVolume` is some `k/7` is the spec's decision D15 (log 15). -/
def Obligations.EveryStepKeepsTheInvariant : Prop := ∀ s t : State, s.Inv → step s = .next t → t.Inv

/-! ## SFX (40_sfx_allocator.md) -/

/-- R121: out-of-range operands make the request a no-op, before any path is taken; a negative start offset does not
(conflict C2, the spec's decision D9: the next statements cover it). -/
def Obligations.SfxOutOfRangeIsIgnored : Prop :=
  ∀ (a b c : Int) (s : State), (a < -2 ∨ 63 < a ∨ b < -1 ∨ 3 < b ∨ 31 < c) → exec (.sfx a b c) s = .next s

/-- R122: stop idles the given channel and touches nothing else; stopping an idle channel changes nothing; with no
channel it does nothing. `MUS` is unaffected, and the sequencer keeps advancing on its master, stopped or not. That a
negative `c` is in range, so that the request is carried out, is the spec's decision D9 (conflict C2, log 15). -/
def Obligations.SfxStopIdlesOneChannel : Prop :=
  ∀ (c : Int) (s : State), c ≤ 31 →
    exec (.sfx (-1) (-1) c) s = .next s ∧
    ∀ ch : Fin 4, ∃ t, exec (.sfx (-1) ch.val c) s = .next t ∧ OnlyChannelsChange s t ∧
      t.chan ch = { s.chan ch with sfxId := none } ∧ (∀ k, k ≠ ch → t.chan k = s.chan k) ∧
      ((s.chan ch).sfxId = none → t = s) ∧
      ∀ (k : Fin 4) (p : Fin 64), s.mus.pattern = some p → s.mus.master = some k →
        (sampleCh k t).1.mus = (advance p t).mus

/-- R123: stop-loop clears `canLoop` of the given channel, playing or not, and nothing else; with no channel it does
nothing; the channel no longer wraps into any loop range. That a negative `c` is in range, so that the request is
carried out, is the spec's decision D9 (conflict C2, log 15). -/
def Obligations.SfxStopLoopClearsOneFlag : Prop :=
  ∀ (c : Int) (s : State), c ≤ 31 →
    exec (.sfx (-2) (-1) c) s = .next s ∧
    ∀ ch : Fin 4, ∃ t, exec (.sfx (-2) ch.val c) s = .next t ∧ OnlyChannelsChange s t ∧
      t.chan ch = { s.chan ch with canLoop := false } ∧ (∀ k, k ≠ ch → t.chan k = s.chan k) ∧
      ∀ (h : SfxHeader) (nxt : Rat), loopWrap h (t.chan ch).canLoop nxt = nxt

/-- R124 to R128: the play path. The channel is the one given; or the first that is idle or already plays `a`; or, if
none is, the one with the smallest `sfxId`, lowest index first. It gets all seven fields; every other channel that plays
`a` is idled; nothing else changes. That a negative start offset is in range and counts as 0 is the spec's decision D9
(conflict C2, log 15). -/
def Obligations.SfxPlayChoosesClearsAndInitialises : Prop :=
  ∀ (a : Fin 64) (b c : Int) (s : State), -1 ≤ b → b ≤ 3 → c ≤ 31 →
    ∃ (ch : Fin 4) (t : State), exec (.sfx a.val b c) s = .next t ∧ OnlyChannelsChange s t ∧
      t.chan ch =
        { sfxId := some a, offset := ((max 0 c : Int) : Rat), phase := 0, canLoop := true, isMusic := false,
          prevKey := 24, prevVolume := 0 } ∧
      (∀ k, k ≠ ch → t.chan k =
        if (s.chan k).sfxId = some a then { s.chan k with sfxId := none } else s.chan k) ∧
      (b ≠ -1 → (ch.val : Int) = b) ∧
      (b = -1 → (∃ k, (s.chan k).sfxId = none ∨ (s.chan k).sfxId = some a) →
        ((s.chan ch).sfxId = none ∨ (s.chan ch).sfxId = some a) ∧
        ∀ k, k < ch → (s.chan k).sfxId ≠ none ∧ (s.chan k).sfxId ≠ some a) ∧
      (b = -1 → (∀ k, (s.chan k).sfxId ≠ none ∧ (s.chan k).sfxId ≠ some a) →
        ∀ k, indexValue (s.chan ch).sfxId ≤ indexValue (s.chan k).sfxId ∧
          (k < ch → indexValue (s.chan ch).sfxId < indexValue (s.chan k).sfxId))

/-- R129: after any `SFX` play request with sound effect `a`, exactly one channel has `sfxId = a`. That a request with
a negative `c` is a play request is the spec's decision D9 (conflict C2, log 15). -/
def Obligations.SfxPlayLeavesExactlyOneChannel : Prop :=
  ∀ (a : Fin 64) (b c : Int) (s : State), -1 ≤ b → b ≤ 3 → c ≤ 31 →
    ∃ t, exec (.sfx a.val b c) s = .next t ∧ ∃! k : Fin 4, (t.chan k).sfxId = some a

/-- R130, property T4: with 0, 1, 2, 3 playing on the four channels, requesting 4 evicts channel 0. -/
def Obligations.SfxEvictsTheLowestNumberedSound : Prop :=
  ∀ s : State, (∀ c : Fin 4, ∃ x : Fin 64, x.val = c.val ∧ (s.chan c).sfxId = some x) →
    ∃ t, exec (.sfx 4 (-1) 0) s = .next t ∧ (t.chan 0).sfxId = some 4 ∧
      ∀ c : Fin 4, c ≠ 0 → (t.chan c).sfxId = (s.chan c).sfxId

/-- The frame of every form of `SFX` (R28, R120): the music record, the tables, the port, the responses and the frames
are unchanged, and a channel is unchanged, idled, stopped from looping, or initialised as a sound effect. That a
negative start offset is in range and counts as 0 is the spec's decision D9 (log 15). -/
def Obligations.SfxFrame : Prop :=
  ∀ (a b c : Int) (s : State), ∃ t, exec (.sfx a b c) s = .next t ∧ OnlyChannelsChange s t ∧
    ∀ k, t.chan k = s.chan k ∨ t.chan k = { s.chan k with sfxId := none } ∨
      t.chan k = { s.chan k with canLoop := false } ∨
      ∃ (x : Fin 64) (o : Int), (x.val : Int) = a ∧ 0 ≤ o ∧ o ≤ 31 ∧ t.chan k =
        { sfxId := some x, offset := (o : Rat), phase := 0, canLoop := true, isMusic := false, prevKey := 24,
          prevVolume := 0 }

/-! ## MUSIC (41_music_sequencer.md) -/

/-- R140: a pattern outside -1..63 makes the request a no-op, whatever the fade length and the mask. -/
def Obligations.MusicOutOfRangeIsIgnored : Prop :=
  ∀ (a b c : Int) (s : State), (a < -1 ∨ 63 < a) → exec (.music a b c) s = .next s

/-- R141: the fade-out path writes `volumeStep` only. -/
def Obligations.MusicFadeOutWritesVolumeStepOnly : Prop :=
  ∀ (b c : Int) (s : State),
    exec (.music (-1) b c) s =
      .next { s with mus := { s.mus with
        volumeStep := if b ≤ 0 then .negInf else .fin (-s.mus.volume * 1000 / (b : Rat)) } }

/-- R142, R143, R144: the start path sets `count`, `mask`, `volume` and `volumeStep`, then activates the pattern. The
mask is the low four bits of `c`, or all channels when what MASK_ZERO_TEST tests is zero: the parameter is OPEN (D12,
log 7) and both values are covered. -/
def Obligations.MusicStartSetsUpAndActivates : Prop :=
  ∀ (a : Fin 64) (b c : Int) (s : State),
    ∃ m : BitVec 4,
      (m.toNat : Int) =
        (match s.env.maskZeroTest with
         | .operand => if c ≠ 0 then c % 16 else 15
         | .masked => if c % 16 ≠ 0 then c % 16 else 15) ∧
      exec (.music a.val b c) s =
        .next (activate a.val { s with mus := { s.mus with
          count := 0
          mask := m
          volume := if 0 < b then 0 else 1
          volumeStep := if 0 < b then .fin (1000 / (b : Rat)) else .fin 0 } })

/-- The frame of every form of `MUSIC` (R28, R66): the tables, the port, the responses and the frames are unchanged,
and a channel is unchanged or initialised as a music channel at offset 0. -/
def Obligations.MusicFrame : Prop :=
  ∀ (a b c : Int) (s : State), ∃ t, exec (.music a b c) s = .next t ∧ OnlyCoreChanges s t ∧
    ∀ k, t.chan k = s.chan k ∨ ∃ x : Fin 64, t.chan k =
      { sfxId := some x, offset := 0, phase := 0, canLoop := false, isMusic := true, prevKey := 24, prevVolume := 0 }

/-- R145, R146, R147, R148: activating a pattern of the table. The master is the enabled slot whose sound effect has
the smallest raw speed, lowest index first, whatever the mask says, and `MUS.speed` its effective speed, or both are
-1 when no slot is enabled; the channels in the mask whose slots are enabled are triggered, with no duplicate
elimination, and no other channel is touched. That bit `k` of the mask is channel `k` is the spec's decision D11
(log 15). -/
def Obligations.ActivateSelectsMasterAndTriggers : Prop :=
  ∀ (p : Fin 64) (s : State),
    ∃ (master : Option (Fin 4)) (speed : Int),
      (activate p.val s).mus =
        { s.mus with pattern := some p, offset := 0, master := master, speed := speed } ∧
      OnlyCoreChanges s (activate p.val s) ∧
      (master = none → speed = -1 ∧ ∀ k : Fin 4, ((s.env.tables.songRow p).slot k).disabled = true) ∧
      (∀ m, master = some m →
        ((s.env.tables.songRow p).slot m).disabled = false ∧
        speed = max 1 ((s.env.tables.sfxHdr ((s.env.tables.songRow p).slot m).sfx).speed.val : Int) ∧
        ∀ k, ((s.env.tables.songRow p).slot k).disabled = false →
          (s.env.tables.sfxHdr ((s.env.tables.songRow p).slot m).sfx).speed ≤
              (s.env.tables.sfxHdr ((s.env.tables.songRow p).slot k).sfx).speed ∧
          (k < m → (s.env.tables.sfxHdr ((s.env.tables.songRow p).slot m).sfx).speed <
              (s.env.tables.sfxHdr ((s.env.tables.songRow p).slot k).sfx).speed)) ∧
      ∀ k : Fin 4, (activate p.val s).chan k =
        if s.mus.mask.getLsbD k.val = true ∧ ((s.env.tables.songRow p).slot k).disabled = false then
          { sfxId := some ((s.env.tables.songRow p).slot k).sfx, offset := 0, phase := 0, canLoop := false,
            isMusic := true, prevKey := 24, prevVolume := 0 }
        else s.chan k

/-- R149: activating a pattern outside 0..63 stops the music, reads no table, triggers nothing and idles nothing; the
pattern after 63 is treated so (the spec's decisions D13 and D14, log 15). -/
def Obligations.ActivateOutsideTheTableStops : Prop :=
  ∀ (p : Int) (s : State), (p < 0 ∨ 63 < p) →
    activate p s = { s with mus := { s.mus with pattern := none, offset := 0, master := none, speed := -1 } }

/-! ## ADVANCE (R150 to R160) -/

/-- R151, R152, and the end of R154: when neither the fade nor the pattern ends, `ADVANCE` moves the position and the
volume and does nothing else. -/
def Obligations.AdvanceInsideAPattern : Prop :=
  ∀ (p : Fin 64) (s : State), ¬ fadesOut (advancedMusic s.mus) → (advancedMusic s.mus).offset < 32 →
    advance p s = { s with mus := advancedMusic s.mus }

/-- R153: fade-out completion idles exactly the music channels and stops the music, even when the pattern ends in the
same `ADVANCE`. -/
def Obligations.AdvanceCompletesAFadeOut : Prop :=
  ∀ (p : Fin 64) (s : State), fadesOut (advancedMusic s.mus) →
    (advance p s).mus = { advancedMusic s.mus with pattern := none, volume := 0 } ∧
    OnlyCoreChanges s (advance p s) ∧
    ∀ k, (advance p s).chan k = if (s.chan k).isMusic = true then { s.chan k with sfxId := none } else s.chan k

/-- R154, R155, R156: the end of a pattern. The stop flag wins and keeps `count`; the loop flag goes back to the
nearest start flag at or below the pattern, or to 0; otherwise the next pattern follows; then that pattern is
activated. That `count` wraps at 16 bits is the spec's decision D17 (log 15). -/
def Obligations.AdvanceEndsAPattern : Prop :=
  ∀ (p : Fin 64) (s : State), ¬ fadesOut (advancedMusic s.mus) → 32 ≤ (advancedMusic s.mus).offset →
    ((s.env.tables.songRow p).stopFlag = true →
      advance p s = activate (-1) { s with mus := advancedMusic s.mus }) ∧
    ((s.env.tables.songRow p).stopFlag = false → (s.env.tables.songRow p).loopFlag = true →
      ∃ i : Fin 64, i ≤ p ∧ (i = 0 ∨ (s.env.tables.songRow i).startFlag = true) ∧
        (∀ j : Fin 64, i < j → j ≤ p → (s.env.tables.songRow j).startFlag = false) ∧
        advance p s =
          activate i.val { s with mus := { advancedMusic s.mus with count := s.mus.count + 1 } }) ∧
    ((s.env.tables.songRow p).stopFlag = false → (s.env.tables.songRow p).loopFlag = false →
      advance p s =
        activate (p.val + 1) { s with mus := { advancedMusic s.mus with count := s.mus.count + 1 } })

/-- R160: the sequencer idles no channel except at fade-out completion: every channel is untouched or triggered. -/
def Obligations.AdvanceIdlesOnlyAtFadeOut : Prop :=
  ∀ (p : Fin 64) (s : State), ¬ fadesOut (advancedMusic s.mus) →
    ∀ k, (advance p s).chan k = s.chan k ∨ ∃ x : Fin 64, (advance p s).chan k =
      { sfxId := some x, offset := 0, phase := 0, canLoop := false, isMusic := true, prevKey := 24, prevVolume := 0 }

/-- R157: after the activation of a pattern at master speed `S`, with no fade-out in progress, `MUS.offset` after the
`n`-th `ADVANCE` is `n / (183 * S)` while `n < 5856 * S`, and the `5856 * S`-th one reaches 32. -/
def Obligations.PatternLastsItsLength : Prop :=
  ∀ (p : Fin 64) (s : State) (S : Nat), 1 ≤ S → s.mus.speed = (S : Int) → s.mus.offset = 0 →
    s.mus.volumeStep.isNeg = false →
    (∀ n, n < 5856 * S →
      ((advance p)^[n] s).mus.offset = (n : Rat) / (183 * (S : Rat)) ∧
      ((advance p)^[n] s).mus.pattern = s.mus.pattern ∧ ((advance p)^[n] s).mus.count = s.mus.count ∧
      ((advance p)^[n] s).ch = s.ch) ∧
    (advancedMusic ((advance p)^[5856 * S - 1] s).mus).offset = 32

/-- R158: a fade-in over `b` milliseconds has volume `min(1, 20n / (441b))` after `n` executions; a fade-out from `v`
has `v * max(0, 1 - 20n / (441b))`; -inf is 0 at once. -/
def Obligations.FadesAreLinear : Prop :=
  ∀ b : Nat, 0 < b → ∀ n : Nat,
    ((fun v => fadeVolume v (.fin (1000 / (b : Rat))))^[n] 0 = min 1 (20 * (n : Rat) / (441 * (b : Rat)))) ∧
    (∀ v : Rat, 0 ≤ v → v ≤ 1 →
      (fun u => fadeVolume u (.fin (-v * 1000 / (b : Rat))))^[n] v =
        v * max 0 (1 - 20 * (n : Rat) / (441 * (b : Rat)))) ∧
    ∀ v : Rat, fadeVolume v .negInf = 0

/-! ## SAMPLECH (42_sample_synthesizer.md) -/

/-- R171: the sequencer runs exactly when the channel is the master and music plays, before the channel's own sample,
which reads the state as the sequencer left it. -/
def Obligations.MasterChannelRunsTheSequencerFirst : Prop :=
  ∀ (c : Fin 4) (s : State),
    (∀ p, s.mus.pattern = some p → s.mus.master = some c → sampleCh c s = synth c (advance p s)) ∧
    (s.mus.pattern = none ∨ s.mus.master ≠ some c → sampleCh c s = synth c s)

/-- R172: an idle channel is silent and nothing moves. -/
def Obligations.IdleChannelIsSilent : Prop :=
  ∀ (c : Fin 4) (s : State), (s.chan c).sfxId = none → synth c s = (s, 0)

/-- R173, R174, R175, R177: the position, the end of the sound effect and the note-boundary snapshot of a playing
channel; its flags stay, and no other channel and nothing else in the machine changes. That `prevVolume` holds the
normalised volume is the spec's decision D15 (log 15). -/
def Obligations.PlayingChannelKeepsItsBooks : Prop :=
  ∀ (c : Fin 4) (x : Fin 64) (s : State), (s.chan c).sfxId = some x →
    let nxt := steppedOffset (s.env.tables.sfxHdr x) (s.chan c)
    let note := s.env.tables.sfxNote x ⌊(s.chan c).offset⌋
    let t := (synth c s).1
    OnlyChannelsChange s t ∧ (∀ k, k ≠ c → t.chan k = s.chan k) ∧
    (t.chan c).offset = nxt ∧
    (t.chan c).sfxId = (if 32 ≤ nxt then none else some x) ∧
    (t.chan c).canLoop = (s.chan c).canLoop ∧ (t.chan c).isMusic = (s.chan c).isMusic ∧
    (t.chan c).prevKey = (if nxt < 32 ∧ ⌊nxt⌋ ≠ ⌊(s.chan c).offset⌋ then note.key else (s.chan c).prevKey) ∧
    (t.chan c).prevVolume =
      (if nxt < 32 ∧ ⌊nxt⌋ ≠ ⌊(s.chan c).offset⌋ then (note.volume.val : Rat) / 7 else (s.chan c).prevVolume)

/-- R176, R178, R179, R180, R181: a silent note gives 0 and holds the phase; an audible one gives the waveform at the
phase before the increment, scaled and truncated toward zero (D4, conflict C1), and adds its PHASE_INC. -/
def Obligations.PlayingChannelSoundsItsNote : Prop :=
  ∀ (c : Fin 4) (x : Fin 64) (s : State), (s.chan c).sfxId = some x →
    let note := s.env.tables.sfxNote x ⌊(s.chan c).offset⌋
    let w := waveAt s.env note.waveform (s.chan c).phase
    let product : Rat := 3276799 / 100 * ((note.volume.val : Rat) / 7) * w
    (note.volume = 0 → (synth c s).2 = 0 ∧ ((synth c s).1.chan c).phase = (s.chan c).phase) ∧
    (note.volume ≠ 0 →
      (synth c s).2 = (if 0 ≤ product then ⌊product⌋ else ⌈product⌉) ∧
      ((synth c s).1.chan c).phase = (s.chan c).phase + Config.phaseInc note.key)

/-- R73: what the core assumes of `Wave`: within [-1, 1] (W2) and of period one cycle (W3, the spec's decision D3). How
the model supplies a function is its own (log 6). -/
def Obligations.WaveIsBoundedAndPeriodic : Prop :=
  ∀ (e : Env) (id : BitVec 4) (ph : Nat),
    -1 ≤ waveAt e id ph ∧ waveAt e id ph ≤ 1 ∧ waveAt e id (ph + 4294967296) = waveAt e id ph

/-- R170, R180: every sample is in -32767..32767, whatever the waveform and whatever the state. The bound rests on ROUND
toward zero, the spec's decision D4 (conflict C1, log 15): rounding to nearest would give 32768 at full scale. -/
def Obligations.SamplesNeverOverflow : Prop :=
  ∀ (c : Fin 4) (s : State), -32767 ≤ (sampleCh c s).2 ∧ (sampleCh c s).2 ≤ 32767

/-- The table of R180: the sample at `w = 1` and `w = -1` for each note volume (truncation: D4). -/
def Obligations.FullScaleSamplesAreAsTabled : Prop :=
  ∀ v : Fin 8,
    convert ((v.val : Rat) / 7) 1 = [0, 4681, 9362, 14043, 18724, 23405, 28086, 32767].getD v.val 0 ∧
    convert ((v.val : Rat) / 7) (-1) = -[0, 4681, 9362, 14043, 18724, 23405, 28086, 32767].getD v.val 0

/-- R181: `PHASE_INC[key]` is the integer nearest to `2^32 * 440 * 2^((key-33)/12) / 22050` (the spec's decision D2). -/
def Obligations.PhaseIncrementsAreNearest : Prop :=
  ∀ k : Fin 64,
    |(2 : ℝ) ^ (32 : ℕ) * 440 * (2 : ℝ) ^ (((k.val : ℝ) - 33) / 12) / 22050 - (Config.phaseInc k : ℝ)| < 1 / 2

/-- R174 and property T8: with music stopped, a looping channel whose range ends at 32 or below plays for ever; once its
offset has reached the start of the range, every later offset lies in the range. -/
def Obligations.LoopingChannelNeverEnds : Prop :=
  ∀ (c : Fin 4) (x : Fin 64) (s : State), s.mus.pattern = none → (s.chan c).sfxId = some x →
    (s.chan c).canLoop = true → 0 ≤ (s.chan c).offset → (s.chan c).offset < 32 →
    (s.env.tables.sfxHdr x).loopStart < (s.env.tables.sfxHdr x).loopEnd →
    (s.env.tables.sfxHdr x).loopEnd.val ≤ 32 →
    ∀ n : Nat,
      (((fun u => (sampleCh c u).1)^[n] s).chan c).sfxId = some x ∧
      (((s.env.tables.sfxHdr x).loopStart.val : Rat) ≤ (s.chan c).offset → 1 ≤ n →
        ((s.env.tables.sfxHdr x).loopStart.val : Rat) ≤ (((fun u => (sampleCh c u).1)^[n] s).chan c).offset ∧
        (((fun u => (sampleCh c u).1)^[n] s).chan c).offset < ((s.env.tables.sfxHdr x).loopEnd.val : Rat))

/-- R184: with music stopped and no wrap, a channel triggered at integer offset `o` plays for exactly
`(32 - o) * 183 * sp` evaluations, at offset `o + n / (183 * sp)` after `n` of them, and is idle after the last. -/
def Obligations.PlaybackLastsItsLength : Prop :=
  ∀ (c : Fin 4) (x : Fin 64) (o sp : Nat) (loop mus : Bool) (s : State), s.mus.pattern = none → o ≤ 31 →
    s.chan c = triggered x (o : Rat) loop mus →
    (loop = false ∨ (s.env.tables.sfxHdr x).loopEnd ≤ (s.env.tables.sfxHdr x).loopStart) →
    sp = max 1 (s.env.tables.sfxHdr x).speed.val →
    (∀ n, n < (32 - o) * 183 * sp →
      (((fun u => (sampleCh c u).1)^[n] s).chan c).sfxId = some x ∧
      (((fun u => (sampleCh c u).1)^[n] s).chan c).offset = (o : Rat) + (n : Rat) / (183 * (sp : Rat))) ∧
    (((fun u => (sampleCh c u).1)^[(32 - o) * 183 * sp] s).chan c).sfxId = none

/-- R33: no sample and no channel depends on the music record inside one channel's synthesis; `MUS.volume` scales
nothing (D16, conflict C5). -/
def Obligations.FadeVolumeScalesNothing : Prop :=
  ∀ (c : Fin 4) (s : State) (m : Music),
    (synth c { s with mus := m }).2 = (synth c s).2 ∧ (synth c { s with mus := m }).1.ch = (synth c s).1.ch

/-- R183: the `effect` field changes nothing: two machines whose tables differ only in effect fields make the same
tick. -/
def Obligations.NoteEffectsAreIgnored : Prop :=
  ∀ (s : State) (m : Memory),
    (∀ i, m.sfxHdr i = s.env.tables.sfxHdr i) → (∀ p, m.songRow p = s.env.tables.songRow p) →
    (∀ (i : Fin 64) (n : Int), { m.sfxNote i n with effect := 0 } = { s.env.tables.sfxNote i n with effect := 0 }) →
    (tick { s with env := { s.env with tables := m } }).out = (tick s).out ∧
    (tick { s with env := { s.env with tables := m } }).ch = (tick s).ch ∧
    (tick { s with env := { s.env with tables := m } }).mus = (tick s).mus

/-! ## TICK and FILL (43_mixer_fill.md) -/

/-- R190, R191, R192: one tick evaluates channels 0, 1, 2, 3 in this order, shifts each sample right by three before
adding, and emits the sum, which never leaves -16384..16380, twice as one frame. The order is the spec's decision D10,
and the bound 16380 rests, through the sample range of R180, on ROUND toward zero, its decision D4 (conflict C1)
(log 15). -/
def Obligations.TickMixesFourChannelsInOrder : Prop :=
  ∀ s : State,
    let r0 := sampleCh 0 s
    let r1 := sampleCh 1 r0.1
    let r2 := sampleCh 2 r1.1
    let r3 := sampleCh 3 r2.1
    let acc : Int := ⌊(r0.2 : Rat) / 8⌋ + ⌊(r1.2 : Rat) / 8⌋ + ⌊(r2.2 : Rat) / 8⌋ + ⌊(r3.2 : Rat) / 8⌋
    acc ≤ 16380 ∧ -16384 ≤ acc ∧
    tick s = { r3.1 with out := s.out ++ [BitVec.ofInt 16 acc ++ BitVec.ofInt 16 acc] }

/-- R159, R150: one tick runs the sequencer not at all, once, or twice: twice exactly when the first run hands the music
to a master above the old one, which is then evaluated in the same tick. A model that ran it once before the four
channels would be a different machine (R225). It rests on the ascending channel order, the spec's decision D10
(log 15). -/
def Obligations.TickRunsTheSequencerAgainForAHigherMaster : Prop :=
  ∀ s : State,
    (s.mus.pattern = none ∨ s.mus.master = none → (tick s).mus = s.mus) ∧
    ∀ (p : Fin 64) (m : Fin 4), s.mus.pattern = some p → s.mus.master = some m →
      ((∃ (q : Fin 64) (m' : Fin 4), (advance p s).mus.pattern = some q ∧ (advance p s).mus.master = some m' ∧
        m < m' ∧ (tick s).mus = (advance q (advance p s)).mus) ∨
      (¬(∃ (q : Fin 64) (m' : Fin 4), (advance p s).mus.pattern = some q ∧ (advance p s).mus.master = some m' ∧
        m < m') ∧ (tick s).mus = (advance p s).mus))

/-- R193: `FILL 1, n` is `n` ticks, one after another, in one request; `FILL 0, n` returns at once. -/
def Obligations.FillRunsItsTicks : Prop :=
  ∀ (bv : Bool) (n : Nat) (s : State), exec (.fill bv n) s = .next (if bv = true then tick^[n] s else s)

/-- R194: a null buffer or a zero count is a no-op. -/
def Obligations.FillNullOrZeroIsIgnored : Prop :=
  ∀ (bv : Bool) (n : Nat) (s : State), exec (.fill false n) s = .next s ∧ exec (.fill bv 0) s = .next s

/-- The frame of every form of `FILL` (R28, R65, R193): it appends exactly its frames, each with equal halves, and
leaves the tables, the port and the responses alone; a channel keeps its flags unless the sequencer triggered it. -/
def Obligations.FillFrame : Prop :=
  ∀ (bv : Bool) (n : Nat) (s : State), ∃ (t : State) (fs : List Frame),
    exec (.fill bv n) s = .next t ∧ t.env = s.env ∧ t.port = s.port ∧ t.resp = s.resp ∧ t.out = s.out ++ fs ∧
    fs.length = (if bv = true then n else 0) ∧
    (∀ f ∈ fs, f.extractLsb' 0 16 = f.extractLsb' 16 16) ∧
    ∀ k, ((t.chan k).canLoop = (s.chan k).canLoop ∧ (t.chan k).isMusic = (s.chan k).isMusic) ∨
      ((t.chan k).canLoop = false ∧ (t.chan k).isMusic = true)

/-- R195: splitting a fill changes nothing. -/
def Obligations.FillSplits : Prop :=
  ∀ (a b : Nat) (s : State), ∃ t u, exec (.fill true a) s = .next t ∧ exec (.fill true b) t = .next u ∧
    exec (.fill true (a + b)) s = .next u

/-- R221: while every channel is idle and the music is stopped, `FILL 1, n` emits `n` zero frames and changes no other
state. -/
def Obligations.SilentCoreFillsWithZeros : Prop :=
  ∀ (n : Nat) (s : State), s.Silent → exec (.fill true n) s = .next { s with out := s.out ++ List.replicate n 0 }

/-! ## STAT (44_stat.md, 10_state.md R46) -/

/-- R46, R196: what `STAT r` answers, for every register of the view and every other number, and that it does nothing
else. The view is the spec's decision D22. -/
def Obligations.StatAnswersTheView : Prop :=
  ∀ s : State,
    (∀ c : Fin 4, StatAnswers s c.val (u16 (match (s.chan c).sfxId with | some x => (x.val : Int) | none => -1))) ∧
    (∀ c : Fin 4, StatAnswers s (4 + c.val)
      (u16 (match (s.chan c).sfxId with | some _ => ⌊(s.chan c).offset⌋ | none => -1))) ∧
    StatAnswers s 8 (u16 (match s.mus.pattern with | some p => (p.val : Int) | none => -1)) ∧
    StatAnswers s 9 s.mus.count ∧
    StatAnswers s 10 (u16 (match s.mus.pattern with | some _ => ⌊s.mus.offset⌋ | none => -1)) ∧
    StatAnswers s 11 (s.mus.mask.setWidth 16) ∧
    StatAnswers s 12 (u16 (match s.mus.master with | some k => (k.val : Int) | none => -1)) ∧
    StatAnswers s 13 (u16 s.mus.speed) ∧
    (∃ v, StatAnswers s 14 v ∧ (∀ c : Fin 4, v.getLsbD c.val = (s.chan c).canLoop ∧
      v.getLsbD (4 + c.val) = (s.chan c).isMusic) ∧ ∀ i, 8 ≤ i → v.getLsbD i = false) ∧
    ∀ r : Int, (r < 0 ∨ 14 < r) → StatAnswers s r 0

/-- R197: the ranges of the STAT values other than register 9's, in every state that meets the invariant; register 9
takes every 16-bit value, so it has no clause. The view is the spec's decision D22 (log 15). -/
def Obligations.StatValuesStayInRange : Prop :=
  ∀ s : State, s.Inv →
    (∀ c : Fin 4, ∃ v, StatAnswers s c.val v ∧ -1 ≤ v.toInt ∧ v.toInt ≤ 63) ∧
    (∀ c : Fin 4, ∃ v, StatAnswers s (4 + c.val) v ∧ -1 ≤ v.toInt ∧ v.toInt ≤ 31) ∧
    (∃ v, StatAnswers s 8 v ∧ -1 ≤ v.toInt ∧ v.toInt ≤ 63) ∧
    (∃ v, StatAnswers s 10 v ∧ -1 ≤ v.toInt ∧ v.toInt ≤ 31) ∧
    (∃ v, StatAnswers s 11 v ∧ v.toNat ≤ 15) ∧
    (∃ v, StatAnswers s 12 v ∧ -1 ≤ v.toInt ∧ v.toInt ≤ 3) ∧
    (∃ v, StatAnswers s 13 v ∧ (v.toInt = -1 ∨ (1 ≤ v.toInt ∧ v.toInt ≤ 255))) ∧
    ∃ v, StatAnswers s 14 v ∧ v.toNat ≤ 255

/-! ## The whole machine -/

/-- R65: no request writes a table; nor does one touch the rest of what the core is given, or the port. -/
def Obligations.NoRequestWritesATable : Prop :=
  ∀ (i : Instr) (s : State), ∃ t, exec i s = .next t ∧ t.env = s.env ∧ t.port = s.port

/-- R100: `STAT` gives one response value, and no other request gives any. -/
def Obligations.OnlyStatResponds : Prop :=
  ∀ (i : Instr) (s : State), ∃ (t : State) (vs : List Response), exec i s = .next t ∧ t.resp = s.resp ++ vs ∧
    vs.length = (match i with | .stat _ => 1 | _ => 0)

/-- R45, R26: `prevKey` and `prevVolume` have no observable effect: two states that differ only there step to two
states that differ only there, with the same frames and the same responses. -/
def Obligations.PrevFieldsAreUnobservable : Prop :=
  ∀ s t : State, SameThrough Channel.forgetPrev s t →
    ∃ s' t', step s = .next s' ∧ step t = .next t' ∧ SameThrough Channel.forgetPrev s' t'

/-- R23: keeping only `phase mod 2^32` makes no observable difference. -/
def Obligations.PhaseCyclesAreUnobservable : Prop :=
  ∀ s t : State, SameThrough Channel.forgetCycles s t →
    ∃ s' t', step s = .next s' ∧ step t = .next t' ∧ SameThrough Channel.forgetCycles s' t'

/-- R48: the reset values that D23 chooses cannot be observed through the frame stream: from any two states that differ
at most in them, the same requests emit the same frames. -/
def Obligations.ResetChoicesAreInaudible : Prop :=
  ∀ (n : Nat) (s t : State), DifferInResetChoices s t →
    ∃ s' t', core.run n s = .next s' ∧ core.run n t = .next t' ∧ s'.out = t'.out

/-- R150, R160: the sequencer never reads a channel: it keeps the same time whatever the channels play, so a fill leaves
the same music record whatever sound effects have taken, stopped or changed the channels. -/
def Obligations.SequencerIgnoresTheChannels : Prop :=
  ∀ (bv : Bool) (n : Nat) (s : State) (cs : Channels), ∃ t u,
    exec (.fill bv n) s = .next t ∧ exec (.fill bv n) { s with ch := cs } = .next u ∧ t.mus = u.mus
end

