-- ==== Sys2Proof/Laws/State.lean ====
section
/-! SUPPORT. One lemma per field per update of State, so that no later proof unfolds a record update; reading a
channel after writing one; loops over the four channels. -/

namespace Sys2Proof.Machine

/-! ## Channels -/

theorem Fin4.cases (c : Fin 4) : c = 0 ∨ c = 1 ∨ c = 2 ∨ c = 3 := by revert c; decide

@[simp] theorem Channels.get_zero (cs : Channels) : cs.get 0 = cs.ch0 := rfl
@[simp] theorem Channels.get_one (cs : Channels) : cs.get 1 = cs.ch1 := rfl
@[simp] theorem Channels.get_two (cs : Channels) : cs.get 2 = cs.ch2 := rfl
@[simp] theorem Channels.get_three (cs : Channels) : cs.get 3 = cs.ch3 := rfl

theorem Channels.get_set (cs : Channels) (c k : Fin 4) (v : Channel) :
    (cs.set c v).get k = if k = c then v else cs.get k := by
  rcases Fin4.cases c with rfl | rfl | rfl | rfl <;> rcases Fin4.cases k with rfl | rfl | rfl | rfl <;> rfl

theorem Channels.ext_get {a b : Channels} (h : ∀ k, a.get k = b.get k) : a = b := by
  have h0 : a.ch0 = b.ch0 := h 0
  have h1 : a.ch1 = b.ch1 := h 1
  have h2 : a.ch2 = b.ch2 := h 2
  have h3 : a.ch3 = b.ch3 := h 3
  cases a; cases b
  simp only at h0 h1 h2 h3
  rw [h0, h1, h2, h3]

/-! ## Updates of State -/

section
variable (s : State) (c k : Fin 4) (v : Channel) (m : Music)

@[simp] theorem State.setChan_mus : (s.setChan c v).mus = s.mus := rfl
@[simp] theorem State.setChan_env : (s.setChan c v).env = s.env := rfl
@[simp] theorem State.setChan_port : (s.setChan c v).port = s.port := rfl
@[simp] theorem State.setChan_resp : (s.setChan c v).resp = s.resp := rfl
@[simp] theorem State.setChan_out : (s.setChan c v).out = s.out := rfl

theorem State.setChan_chan : (s.setChan c v).chan k = if k = c then v else s.chan k := Channels.get_set _ _ _ _
@[simp] theorem State.setChan_chan_self : (s.setChan c v).chan c = v := by rw [State.setChan_chan, if_pos rfl]
theorem State.setChan_chan_ne (h : k ≠ c) : (s.setChan c v).chan k = s.chan k := by
  rw [State.setChan_chan, if_neg h]

@[simp] theorem State.setMus_ch : (s.setMus m).ch = s.ch := rfl
@[simp] theorem State.setMus_chan : (s.setMus m).chan k = s.chan k := rfl
@[simp] theorem State.setMus_mus : (s.setMus m).mus = m := rfl
@[simp] theorem State.setMus_env : (s.setMus m).env = s.env := rfl
@[simp] theorem State.setMus_port : (s.setMus m).port = s.port := rfl
@[simp] theorem State.setMus_resp : (s.setMus m).resp = s.resp := rfl
@[simp] theorem State.setMus_out : (s.setMus m).out = s.out := rfl
@[simp] theorem State.setMus_setMus (n : Music) : (s.setMus m).setMus n = s.setMus n := rfl
@[simp] theorem State.setMus_self : s.setMus s.mus = s := rfl

@[simp] theorem emit_ch (f : Frame) : (emit f s).ch = s.ch := rfl
@[simp] theorem emit_chan (f : Frame) : (emit f s).chan k = s.chan k := rfl
@[simp] theorem emit_mus (f : Frame) : (emit f s).mus = s.mus := rfl
@[simp] theorem emit_env (f : Frame) : (emit f s).env = s.env := rfl
@[simp] theorem emit_port (f : Frame) : (emit f s).port = s.port := rfl
@[simp] theorem emit_resp (f : Frame) : (emit f s).resp = s.resp := rfl
@[simp] theorem emit_out (f : Frame) : (emit f s).out = s.out ++ [f] := rfl

@[simp] theorem respond_ch (r : Response) : (respond r s).ch = s.ch := rfl
@[simp] theorem respond_chan (r : Response) : (respond r s).chan k = s.chan k := rfl
@[simp] theorem respond_mus (r : Response) : (respond r s).mus = s.mus := rfl
@[simp] theorem respond_env (r : Response) : (respond r s).env = s.env := rfl
@[simp] theorem respond_port (r : Response) : (respond r s).port = s.port := rfl
@[simp] theorem respond_resp (r : Response) : (respond r s).resp = s.resp ++ [r] := rfl
@[simp] theorem respond_out (r : Response) : (respond r s).out = s.out := rfl

@[simp] theorem hostWrite_ch (t : TableWrite) : (hostWrite t s).ch = s.ch := rfl
@[simp] theorem hostWrite_chan (t : TableWrite) : (hostWrite t s).chan k = s.chan k := rfl
@[simp] theorem hostWrite_mus (t : TableWrite) : (hostWrite t s).mus = s.mus := rfl
@[simp] theorem hostWrite_tables (t : TableWrite) : (hostWrite t s).env.tables = s.env.tables.write t := rfl
@[simp] theorem hostWrite_wave (t : TableWrite) : (hostWrite t s).env.wave = s.env.wave := rfl
@[simp] theorem hostWrite_maskZeroTest (t : TableWrite) :
    (hostWrite t s).env.maskZeroTest = s.env.maskZeroTest := rfl
@[simp] theorem hostWrite_port (t : TableWrite) : (hostWrite t s).port = s.port := rfl
@[simp] theorem hostWrite_resp (t : TableWrite) : (hostWrite t s).resp = s.resp := rfl
@[simp] theorem hostWrite_out (t : TableWrite) : (hostWrite t s).out = s.out := rfl

@[simp] theorem ignored_eq : ignored s = s := rfl
@[simp] theorem acceptReserved_eq (r : Reserved) : acceptReserved r s = s := rfl

@[simp] theorem withPort_chan (p : List PortEvent) : State.chan { s with port := p } k = s.chan k := rfl

theorem State.ext_chan {s t : State} (hc : ∀ k, s.chan k = t.chan k) (hm : s.mus = t.mus) (he : s.env = t.env)
    (hp : s.port = t.port) (hr : s.resp = t.resp) (ho : s.out = t.out) : s = t := by
  have h : s.ch = t.ch := Channels.ext_get hc
  cases s; cases t; simp_all

@[simp] theorem State.setChan_self : s.setChan c (s.chan c) = s := by
  refine State.ext_chan (fun k => ?_) rfl rfl rfl rfl rfl
  rw [State.setChan_chan]; split <;> simp_all

end

/-! ## Named channel operations -/

section
variable (s : State) (c k : Fin 4)

theorem idleChannel_chan :
    (idleChannel c s).chan k = if k = c then { s.chan c with sfxId := none } else s.chan k :=
  State.setChan_chan ..
@[simp] theorem idleChannel_mus : (idleChannel c s).mus = s.mus := rfl
@[simp] theorem idleChannel_env : (idleChannel c s).env = s.env := rfl
@[simp] theorem idleChannel_port : (idleChannel c s).port = s.port := rfl
@[simp] theorem idleChannel_resp : (idleChannel c s).resp = s.resp := rfl
@[simp] theorem idleChannel_out : (idleChannel c s).out = s.out := rfl

theorem initChannel_chan (x : Fin 64) (off : Rat) (l m : Bool) :
    (initChannel c x off l m s).chan k = if k = c then triggered x off l m else s.chan k :=
  State.setChan_chan ..
@[simp] theorem initChannel_mus (x : Fin 64) (off : Rat) (l m : Bool) : (initChannel c x off l m s).mus = s.mus := rfl
@[simp] theorem initChannel_env (x : Fin 64) (off : Rat) (l m : Bool) : (initChannel c x off l m s).env = s.env := rfl
@[simp] theorem initChannel_port (x : Fin 64) (off : Rat) (l m : Bool) :
    (initChannel c x off l m s).port = s.port := rfl
@[simp] theorem initChannel_resp (x : Fin 64) (off : Rat) (l m : Bool) :
    (initChannel c x off l m s).resp = s.resp := rfl
@[simp] theorem initChannel_out (x : Fin 64) (off : Rat) (l m : Bool) :
    (initChannel c x off l m s).out = s.out := rfl

end

/-! ## `for k in 0..3` -/

/-- A loop whose body at `k` rewrites channel `k` from `MUS`, the inputs and channel `k` alone rewrites every channel
once. -/
theorem forChannels_chan {f : Fin 4 → State → State} {g : Music → Env → Fin 4 → Channel → Channel}
    (hf : ∀ k s, OnlyChannelsChange s (f k s) ∧
      ∀ j, (f k s).chan j = if j = k then g s.mus s.env k (s.chan k) else s.chan j)
    (s : State) :
    OnlyChannelsChange s (forChannels f s) ∧ ∀ j, (forChannels f s).chan j = g s.mus s.env j (s.chan j) := by
  obtain ⟨a0, b0⟩ := hf 0 s
  obtain ⟨a1, b1⟩ := hf 1 (f 0 s)
  obtain ⟨a2, b2⟩ := hf 2 (f 1 (f 0 s))
  obtain ⟨a3, b3⟩ := hf 3 (f 2 (f 1 (f 0 s)))
  simp only [OnlyChannelsChange] at a0 a1 a2 a3
  refine ⟨?_, fun j => ?_⟩
  · simp only [OnlyChannelsChange, forChannels]
    simp_all
  · simp only [forChannels]
    rcases Fin4.cases j with rfl | rfl | rfl | rfl <;> simp [b0, b1, b2, b3, a0, a1, a2]

end Sys2Proof.Machine
end

