-- ==== Sys2Proof/Laws/Memory.lean ====
section
/-! SUPPORT. The table spaces: a read after a write, the canonical form, and that it makes equal tables equal data. -/

namespace Sys2Proof.Machine

section
variable {w : Nat}

theorem Sparse.find_put (l : Sparse w) (k j : Nat) (v : BitVec w) :
    Sparse.find (Sparse.put l k v) j = if j = k then some v else Sparse.find l j := by
  induction l with
  | nil => simp [Sparse.put, Sparse.find]
  | cons p r ih =>
    obtain ⟨k0, v0⟩ := p
    unfold Sparse.put
    split
    · simp only [Sparse.find]
    · split
      · subst k0; simp only [Sparse.find]; split <;> rfl
      · simp only [Sparse.find, ih]
        split
        · rename_i h1 h2 h3; rw [if_neg]; omega
        · rfl

theorem Sparse.ordered_mono {b lo lo' : Nat} {l : Sparse w} (h : lo' ≤ lo) (ho : Sparse.ordered b lo l = true) :
    Sparse.ordered b lo' l = true := by
  cases l with
  | nil => rfl
  | cons p r =>
    simp only [Sparse.ordered, Bool.and_eq_true, decide_eq_true_eq] at ho ⊢
    exact ⟨⟨by omega, ho.1.2⟩, ho.2⟩

theorem Sparse.ordered_put {b lo k : Nat} {l : Sparse w} (v : BitVec w) (hlo : lo ≤ k) (hb : k < b)
    (ho : Sparse.ordered b lo l = true) : Sparse.ordered b lo (Sparse.put l k v) = true := by
  induction l generalizing lo with
  | nil => simp [Sparse.put, Sparse.ordered, hlo, hb]
  | cons p r ih =>
    obtain ⟨k0, v0⟩ := p
    simp only [Sparse.ordered, Bool.and_eq_true, decide_eq_true_eq] at ho
    unfold Sparse.put
    split
    · simp only [Sparse.ordered, Bool.and_eq_true, decide_eq_true_eq]
      exact ⟨⟨hlo, hb⟩, ⟨by omega, ho.1.2⟩, ho.2⟩
    · split
      · subst k0; simp only [Sparse.ordered, Bool.and_eq_true, decide_eq_true_eq]; exact ho
      · simp only [Sparse.ordered, Bool.and_eq_true, decide_eq_true_eq]
        exact ⟨ho.1, ih (by omega) ho.2⟩

theorem Sparse.find_below {b lo k : Nat} {l : Sparse w} (ho : Sparse.ordered b lo l = true) (hk : k < lo) :
    Sparse.find l k = none := by
  induction l generalizing lo with
  | nil => rfl
  | cons p r ih =>
    simp only [Sparse.ordered, Bool.and_eq_true, decide_eq_true_eq] at ho
    simp only [Sparse.find]
    rw [if_neg (by omega)]
    exact ih ho.2 (by omega)

/-- Two spaces in canonical form that list the same records are the same data. -/
theorem Sparse.ext_find {b lo : Nat} {l m : Sparse w} (hl : Sparse.ordered b lo l = true)
    (hm : Sparse.ordered b lo m = true) (h : ∀ k, Sparse.find l k = Sparse.find m k) : l = m := by
  induction l generalizing m lo with
  | nil =>
    cases m with
    | nil => rfl
    | cons q r => have := h q.1; simp [Sparse.find] at this
  | cons p r ih =>
    cases m with
    | nil => have := h p.1; simp [Sparse.find] at this
    | cons q r' =>
      obtain ⟨k, v⟩ := p
      obtain ⟨k', v'⟩ := q
      simp only [Sparse.ordered, Bool.and_eq_true, decide_eq_true_eq] at hl hm
      have hk : k = k' := by
        rcases Nat.lt_trichotomy k k' with hlt | heq | hgt
        · have := h k
          simp only [Sparse.find, if_true] at this
          rw [if_neg (by omega), Sparse.find_below hm.2 (by omega)] at this
          cases this
        · exact heq
        · have := h k'
          simp only [Sparse.find, if_true] at this
          rw [if_neg (by omega), Sparse.find_below hl.2 (by omega)] at this
          cases this
      subst hk
      have hv := h k
      simp only [Sparse.find, if_true, Option.some.injEq] at hv
      subst hv
      rw [ih hl.2 hm.2 fun j => ?_]
      by_cases hj : j < k + 1
      · rw [Sparse.find_below hl.2 hj, Sparse.find_below hm.2 hj]
      · have := h j
        simp only [Sparse.find] at this
        rwa [if_neg (by omega), if_neg (by omega)] at this

end

theorem noteKey_lt (i : Fin 64) (n : Fin 32) : noteKey i n < 2048 := by
  have := i.isLt; have := n.isLt; unfold noteKey; omega

theorem noteKey_inj {i i' : Fin 64} {n n' : Fin 32} (h : noteKey i n = noteKey i' n') : i = i' ∧ n = n' := by
  unfold noteKey at h
  constructor <;> apply Fin.ext <;> omega

/-- Every write keeps the canonical form. -/
theorem Memory.wf_write (m : Memory) (t : TableWrite) (h : m.wf = true) : (m.write t).wf = true := by
  simp only [Memory.wf, Bool.and_eq_true] at h ⊢
  cases t with
  | hdr i v => exact ⟨⟨Sparse.ordered_put v (Nat.zero_le _) i.isLt h.1.1, h.1.2⟩, h.2⟩
  | note i n v => exact ⟨⟨h.1.1, Sparse.ordered_put v (Nat.zero_le _) (noteKey_lt i n) h.1.2⟩, h.2⟩
  | song p v => exact ⟨⟨h.1.1, h.1.2⟩, Sparse.ordered_put v (Nat.zero_le _) p.isLt h.2⟩

theorem Memory.wf_unfilled : Memory.unfilled.wf = true := rfl

/-! ## A read after a write -/

theorem Memory.hdrWord_write (m : Memory) (i j : Fin 64) (v : BitVec 24) :
    (m.write (.hdr i v)).hdrWord j = if j = i then v else m.hdrWord j := by
  simp only [Memory.hdrWord, Memory.write, Sparse.find_put, Fin.val_inj]
  split <;> rfl

theorem Memory.songWord_write (m : Memory) (p q : Fin 64) (v : BitVec 32) :
    (m.write (.song p v)).songWord q = if q = p then v else m.songWord q := by
  simp only [Memory.songWord, Memory.write, Sparse.find_put, Fin.val_inj]
  split <;> rfl

theorem asIndex_val {n : Nat} (i : Fin n) : asIndex n (i.val : Int) = some i := by
  have := i.isLt
  unfold asIndex
  rw [dif_pos (by omega)]
  simp

theorem asIndex_eq_some {n : Nat} {v : Int} {i : Fin n} : asIndex n v = some i ↔ v = i.val := by
  constructor
  · intro h
    unfold asIndex at h
    split at h
    · rename_i hv
      simp only [Option.some.injEq] at h
      subst h
      simp only
      omega
    · cases h
  · rintro rfl; exact asIndex_val i

theorem asIndex_eq_none {n : Nat} {v : Int} : asIndex n v = none ↔ v < 0 ∨ (n : Int) ≤ v := by
  unfold asIndex
  split
  · simp; omega
  · simp; omega

theorem Memory.noteWord_write (m : Memory) (i j : Fin 64) (n : Fin 32) (k : Int) (v : BitVec 16) :
    (m.write (.note i n v)).noteWord j k = if j = i ∧ k = n.val then v else m.noteWord j k := by
  simp only [Memory.noteWord, Memory.write]
  cases h : asIndex 32 k with
  | none =>
    rw [asIndex_eq_none] at h
    rw [if_neg]
    have := n.isLt
    omega
  | some q =>
    rw [asIndex_eq_some] at h
    subst h
    simp only [Sparse.find_put]
    by_cases hk : noteKey j q = noteKey i n
    · obtain ⟨rfl, rfl⟩ := noteKey_inj hk
      simp
    · rw [if_neg hk, if_neg]
      rintro ⟨rfl, hq⟩
      exact hk (by rw [Fin.ext (Int.ofNat.inj hq)])

@[simp] theorem Memory.songWord_write_hdr (m : Memory) (i p : Fin 64) (v : BitVec 24) :
    (m.write (.hdr i v)).songWord p = m.songWord p := rfl
@[simp] theorem Memory.noteWord_write_hdr (m : Memory) (i j : Fin 64) (n : Int) (v : BitVec 24) :
    (m.write (.hdr i v)).noteWord j n = m.noteWord j n := rfl
@[simp] theorem Memory.hdrWord_write_note (m : Memory) (i j : Fin 64) (n : Fin 32) (v : BitVec 16) :
    (m.write (.note i n v)).hdrWord j = m.hdrWord j := rfl
@[simp] theorem Memory.songWord_write_note (m : Memory) (i p : Fin 64) (n : Fin 32) (v : BitVec 16) :
    (m.write (.note i n v)).songWord p = m.songWord p := rfl
@[simp] theorem Memory.hdrWord_write_song (m : Memory) (p j : Fin 64) (v : BitVec 32) :
    (m.write (.song p v)).hdrWord j = m.hdrWord j := rfl
@[simp] theorem Memory.noteWord_write_song (m : Memory) (p j : Fin 64) (n : Int) (v : BitVec 32) :
    (m.write (.song p v)).noteWord j n = m.noteWord j n := rfl

end Sys2Proof.Machine
end

