-- ==== Sys2Proof/Laws/Numbers.lean ====
section
/-! SUPPORT. The exact arithmetic of 00_scope.md R9: what each function of Operands.lean computes, in Mathlib's
terms, and the bounds the mixer rests on. -/

namespace Sys2Proof.Machine

theorem floor_eq (q : Rat) : floor q = ⌊q⌋ := rfl

theorem trunc_of_nonneg {q : Rat} (h : 0 ≤ q) : trunc q = ⌊q⌋ := by
  have hn : 0 ≤ q.num := Rat.num_nonneg.mpr h
  unfold trunc
  rw [Int.tdiv_eq_ediv_of_nonneg hn]
  conv_rhs => rw [← Rat.num_div_den q]
  exact (Rat.floor_intCast_div_natCast q.num q.den).symm

theorem trunc_neg (q : Rat) : trunc (-q) = -trunc q := by
  unfold trunc
  rw [Rat.num_neg_eq_neg_num, Rat.den_neg_eq_den, Int.neg_tdiv]

theorem trunc_of_nonpos {q : Rat} (h : q ≤ 0) : trunc q = ⌈q⌉ := by
  have h1 := trunc_of_nonneg (q := -q) (by linarith)
  rw [trunc_neg, Int.floor_neg] at h1
  omega

theorem trunc_bounds {q : Rat} {n : Int} (hn : 0 ≤ n) (h1 : -((n : Rat) + 1) < q) (h2 : q < (n : Rat) + 1) :
    -n ≤ trunc q ∧ trunc q ≤ n := by
  rcases le_total 0 q with h | h
  · rw [trunc_of_nonneg h]
    refine ⟨?_, ?_⟩
    · have := Int.floor_nonneg.mpr h; omega
    · have : ⌊q⌋ < n + 1 := Int.floor_lt.mpr (by push_cast; exact h2)
      omega
  · rw [trunc_of_nonpos h]
    refine ⟨?_, ?_⟩
    · have : -(n + 1) < ⌈q⌉ := Int.lt_ceil.mpr (by push_cast; linarith)
      omega
    · have : ⌈q⌉ ≤ 0 := Int.ceil_le.mpr (by simpa using h)
      omega

theorem qmod_nonneg {a m : Rat} (hm : 0 < m) : 0 ≤ qmod a m := by
  have h := Int.floor_le (a / m)
  rw [le_div_iff₀ hm] at h
  simp only [qmod, floor_eq]
  linarith

theorem qmod_lt {a m : Rat} (hm : 0 < m) : qmod a m < m := by
  have h := Int.lt_floor_add_one (a / m)
  rw [div_lt_iff₀ hm] at h
  simp only [qmod, floor_eq]
  linarith

theorem qmod_le {a m : Rat} (ha : 0 ≤ a) (hm : 0 < m) : qmod a m ≤ a := by
  have h : (0 : Rat) ≤ (⌊a / m⌋ : Rat) := by
    exact_mod_cast Int.floor_nonneg.mpr (div_nonneg ha hm.le)
  simp only [qmod, floor_eq]
  nlinarith

theorem asr3_bounds {v : Int} (h1 : -32767 ≤ v) (h2 : v ≤ 32767) : -4096 ≤ asr3 v ∧ asr3 v ≤ 4095 := by
  unfold asr3 Config.attenDivisor
  omega

theorem clamp01_nonneg (x : QInf) : 0 ≤ clamp01 x := by
  cases x with
  | negInf => exact le_refl _
  | fin q =>
    simp only [clamp01]
    split
    · exact le_refl _
    · split
      · norm_num
      · linarith

theorem clamp01_le_one (x : QInf) : clamp01 x ≤ 1 := by
  cases x with
  | negInf => norm_num [clamp01]
  | fin q =>
    simp only [clamp01]
    split
    · norm_num
    · split
      · norm_num
      · linarith

theorem clamp01_fin (q : Rat) : clamp01 (.fin q) = max 0 (min 1 q) := by
  simp only [clamp01]
  split
  · rw [max_eq_left]; exact le_trans (min_le_right _ _) (by linarith)
  · split
    · rw [min_eq_left (by linarith)]; norm_num
    · rw [min_eq_right (by linarith), max_eq_right (by linarith)]

theorem fadeVolume_nonneg (v : Rat) (x : QInf) : 0 ≤ fadeVolume v x := clamp01_nonneg _

theorem fadeVolume_le_one (v : Rat) (x : QInf) : fadeVolume v x ≤ 1 := clamp01_le_one _

theorem fadeVolume_negInf (v : Rat) : fadeVolume v .negInf = 0 := rfl

theorem fadeVolume_fin (v q : Rat) : fadeVolume v (.fin q) = max 0 (min 1 (v + q / 22050)) := clamp01_fin _

theorem clampUnit_bounds (q : Rat) : -1 ≤ clampUnit q ∧ clampUnit q ≤ 1 := by
  unfold clampUnit
  split
  · norm_num
  · split
    · norm_num
    · constructor <;> linarith

/-- W2 (R73). -/
theorem waveAt_bounds (e : Env) (id : BitVec 4) (ph : Nat) : -1 ≤ waveAt e id ph ∧ waveAt e id ph ≤ 1 :=
  clampUnit_bounds _

/-- W3 (R73): the waveform sees the phase modulo one cycle. -/
theorem waveAt_mod (e : Env) (id : BitVec 4) (ph : Nat) : waveAt e id (ph % 4294967296) = waveAt e id ph := by
  unfold waveAt Config.cycle
  rw [Nat.mod_mod]

theorem normalVolume_nonneg (n : Note) : 0 ≤ normalVolume n := by
  unfold normalVolume Config.volMax
  positivity

theorem normalVolume_le_one (n : Note) : normalVolume n ≤ 1 := by
  have h : (n.volume.val : Rat) ≤ 7 := by exact_mod_cast Nat.le_of_lt_succ n.volume.isLt
  unfold normalVolume Config.volMax
  linarith

theorem normalVolume_eq_zero (n : Note) : normalVolume n = 0 ↔ n.volume = 0 := by
  unfold normalVolume Config.volMax
  constructor
  · intro h
    have h1 : (n.volume.val : Rat) = 0 := by linarith
    have h2 : n.volume.val = 0 := Nat.cast_eq_zero.mp h1
    exact Fin.ext h2
  · intro h; simp [h]

theorem convert_eq (vol w : Rat) : convert vol w = trunc (3276799 / 100 * vol * w) := rfl

/-- The sample never leaves -32767..32767 (R180). -/
theorem convert_bounds {vol w : Rat} (h0 : 0 ≤ vol) (h1 : vol ≤ 1) (hw : -1 ≤ w ∧ w ≤ 1) :
    -32767 ≤ convert vol w ∧ convert vol w ≤ 32767 := by
  rw [convert_eq]
  have hv : |vol| ≤ 1 := abs_le.mpr ⟨by linarith, h1⟩
  have ha : |w| ≤ 1 := abs_le.mpr hw
  have hm : |vol * w| ≤ 1 := by rw [abs_mul]; exact mul_le_one₀ hv (abs_nonneg _) ha
  have := abs_le.mp hm
  apply trunc_bounds (by norm_num)
  · push_cast; nlinarith
  · push_cast; nlinarith

theorem effectiveSpeed_pos (h : SfxHeader) : (1 : Rat) ≤ (effectiveSpeed h : Rat) := by
  unfold effectiveSpeed
  exact_mod_cast le_max_left 1 _

theorem effectiveSpeed_le (h : SfxHeader) : effectiveSpeed h ≤ 255 := by
  have := h.speed.isLt
  unfold effectiveSpeed
  omega

theorem positionStep_pos {x : Rat} (h : 1 ≤ x) : 0 < positionStep x := by
  unfold positionStep Config.div; positivity

theorem positionStep_le {x : Rat} (h : 1 ≤ x) : positionStep x ≤ 1 / 183 := by
  unfold positionStep Config.div
  apply one_div_le_one_div_of_le <;> linarith

end Sys2Proof.Machine
end

