-- ==== Sys2Proof/Laws/Allocator.lean ====
section
/-! SUPPORT. What `SFX` can do (40_sfx_allocator.md): the selected channel, duplicate elimination, the play path, and
one case lemma for the whole request. -/

namespace Sys2Proof.Machine

theorem firstChannel_eq_some {p : Fin 4 → Bool} {c : Fin 4} (h : firstChannel p = some c) :
    p c = true ∧ ∀ k, k < c → p k = false := by
  unfold firstChannel at h
  split at h
  · cases h; exact ⟨by assumption, fun k hk => absurd hk (by omega)⟩
  · split at h
    · cases h
      refine ⟨by assumption, fun k hk => ?_⟩
      rcases Fin4.cases k with rfl | rfl | rfl | rfl <;> simp_all
    · split at h
      · cases h
        refine ⟨by assumption, fun k hk => ?_⟩
        rcases Fin4.cases k with rfl | rfl | rfl | rfl <;> simp_all
      · split at h
        · cases h
          refine ⟨by assumption, fun k hk => ?_⟩
          rcases Fin4.cases k with rfl | rfl | rfl | rfl <;> simp_all
        · cases h

theorem firstChannel_eq_none {p : Fin 4 → Bool} : firstChannel p = none ↔ ∀ k, p k = false := by
  constructor
  · intro h k
    unfold firstChannel at h
    rcases Fin4.cases k with rfl | rfl | rfl | rfl <;> by_contra hk <;> rw [Bool.not_eq_false] at hk <;>
      split_ifs at h
  · intro h; simp [firstChannel, h]

theorem pass1Accepts_iff {a : Fin 64} {ch : Channel} :
    pass1Accepts a ch = true ↔ ch.sfxId = none ∨ ch.sfxId = some a := by
  simp [pass1Accepts]

/-- Pass 2 finds the smallest `sfxId`, the lowest index among equals (R126). -/
theorem pass2_spec (s : State) (k : Fin 4) :
    indexValue (s.chan (pass2 s)).sfxId ≤ indexValue (s.chan k).sfxId ∧
      (k < pass2 s → indexValue (s.chan (pass2 s)).sfxId < indexValue (s.chan k).sfxId) := by
  have key : ∀ v : Fin 4 → Int, ∀ r : Fin 4,
      r = (let m1 : Fin 4 := if v 1 < v 0 then 1 else 0
           let m2 : Fin 4 := if v 2 < v m1 then 2 else m1
           if v 3 < v m2 then 3 else m2) →
      ∀ k, v r ≤ v k ∧ (k < r → v r < v k) := by
    intro v r hr k
    dsimp only at hr
    subst hr
    rcases Fin4.cases k with rfl | rfl | rfl | rfl <;> split_ifs <;> constructor <;> omega
  exact key (fun i => indexValue (s.chan i).sfxId) (pass2 s) rfl k

/-- Duplicate elimination idles every other channel that plays `a`, and changes nothing else (R127). -/
theorem eliminateDuplicates_spec (ch : Fin 4) (a : Fin 64) (s : State) :
    OnlyChannelsChange s (eliminateDuplicates ch a s) ∧
      ∀ k, (eliminateDuplicates ch a s).chan k =
        if k ≠ ch ∧ (s.chan k).sfxId = some a then { s.chan k with sfxId := none } else s.chan k := by
  refine forChannels_chan
    (g := fun _ _ k v => if k ≠ ch ∧ v.sfxId = some a then { v with sfxId := none } else v) (fun k s => ?_) s
  split
  · exact ⟨⟨rfl, rfl, rfl, rfl, rfl⟩, fun j => idleChannel_chan s k j⟩
  · refine ⟨⟨rfl, rfl, rfl, rfl, rfl⟩, fun j => ?_⟩
    split <;> simp_all

/-- The play path: the chosen channel is initialised, duplicates are idled, nothing else changes (R127, R128). -/
theorem sfxPlay_spec (a : Fin 64) (b c : Int) (s : State) :
    OnlyChannelsChange s (sfxPlay a b c s) ∧
      ∀ k, (sfxPlay a b c s).chan k =
        if k = selectChannel a b s then triggered a ((max 0 c : Int) : Rat) true false
        else if (s.chan k).sfxId = some a then { s.chan k with sfxId := none } else s.chan k := by
  obtain ⟨h1, h2⟩ := eliminateDuplicates_spec (selectChannel a b s) a s
  refine ⟨h1, fun k => ?_⟩
  rw [sfxPlay, initChannel_chan]
  split
  · rfl
  · rename_i hk; rw [h2 k]; simp [hk]

/-- Everything the request can do: nothing, stop one channel, clear one loop flag, or play. -/
theorem sfxRequest_cases (a b c : Int) (s : State) :
    sfxRequest a b c s = s ∨
    (∃ ch, sfxRequest a b c s = idleChannel ch s) ∨
    (∃ ch, sfxRequest a b c s = s.setChan ch { s.chan ch with canLoop := false }) ∨
    (∃ x : Fin 64, c ≤ 31 ∧ sfxRequest a b c s = sfxPlay x b c s) := by
  unfold sfxRequest
  split
  · exact .inl rfl
  · rename_i hr
    split
    · unfold sfxStop; split
      · exact .inr (.inl ⟨_, rfl⟩)
      · exact .inl rfl
    · split
      · unfold sfxStopLoop; split
        · exact .inr (.inr (.inl ⟨_, rfl⟩))
        · exact .inl rfl
      · split
        · exact .inr (.inr (.inr ⟨_, by omega, rfl⟩))
        · exact .inl rfl

theorem sfxRequest_frame (a b c : Int) (s : State) : OnlyChannelsChange s (sfxRequest a b c s) := by
  rcases sfxRequest_cases a b c s with h | ⟨ch, h⟩ | ⟨ch, h⟩ | ⟨x, -, h⟩ <;> rw [h]
  · exact ⟨rfl, rfl, rfl, rfl, rfl⟩
  · exact ⟨rfl, rfl, rfl, rfl, rfl⟩
  · exact ⟨rfl, rfl, rfl, rfl, rfl⟩
  · exact (sfxPlay_spec x b c s).1

end Sys2Proof.Machine
end

