-- ==== Sys2Proof/Laws/Encoding.lean ====
section
/-! SUPPORT. Fields of request words (30_encoding.md R91 to R94): a word is made up of its fields, a field of an
assembled word is the field it was assembled from, and which fields each row of the opcode map tests. -/

namespace Sys2Proof

/-! ## 16-bit signed operands (R93) -/

theorem sext16_u16 {v : Int} (h : isInt16 v = true) : sext16 (u16 v) = v := by
  simp only [isInt16, Bool.and_eq_true, decide_eq_true_eq] at h
  unfold sext16 u16
  rw [BitVec.toInt_ofInt, Int.bmod_eq_of_le] <;> omega

@[simp] theorem u16_sext16 (f : BitVec 16) : u16 (sext16 f) = f := BitVec.ofInt_toInt

@[simp] theorem isInt16_sext16 (f : BitVec 16) : isInt16 (sext16 f) = true := by
  have h1 := BitVec.le_toInt f
  have h2 := BitVec.toInt_lt (x := f)
  simp only [isInt16, Bool.and_eq_true, sext16]
  exact ⟨decide_eq_true (by omega), decide_eq_true (by omega)⟩

/-! ## Format C (R91) -/

section
variable (op z : BitVec 8) (a b c : BitVec 16) (w : RequestWord)

theorem formatC_fields : formatC (opField w) (zField w) (aField w) (bField w) (cField w) = w := by
  apply BitVec.eq_of_getLsbD_eq
  intro i hi
  simp only [formatC, opField, zField, aField, bField, cField, BitVec.getLsbD_append, BitVec.getLsbD_extractLsb']
  split_ifs <;> (rw [decide_eq_true (by omega), Bool.true_and]; congr 1; omega)

@[simp] theorem opField_formatC : opField (formatC op z a b c) = op := by
  apply BitVec.eq_of_getLsbD_eq
  intro i hi
  simp only [formatC, opField, BitVec.getLsbD_append, BitVec.getLsbD_extractLsb', decide_eq_true hi, Bool.true_and]
  split_ifs <;> first | omega | (congr 1; omega)

@[simp] theorem zField_formatC : zField (formatC op z a b c) = z := by
  apply BitVec.eq_of_getLsbD_eq
  intro i hi
  simp only [formatC, zField, BitVec.getLsbD_append, BitVec.getLsbD_extractLsb', decide_eq_true hi, Bool.true_and]
  split_ifs <;> first | omega | (congr 1; omega)

@[simp] theorem aField_formatC : aField (formatC op z a b c) = a := by
  apply BitVec.eq_of_getLsbD_eq
  intro i hi
  simp only [formatC, aField, BitVec.getLsbD_append, BitVec.getLsbD_extractLsb', decide_eq_true hi, Bool.true_and]
  split_ifs <;> first | omega | (congr 1; omega)

@[simp] theorem bField_formatC : bField (formatC op z a b c) = b := by
  apply BitVec.eq_of_getLsbD_eq
  intro i hi
  simp only [formatC, bField, BitVec.getLsbD_append, BitVec.getLsbD_extractLsb', decide_eq_true hi, Bool.true_and]
  split_ifs <;> first | omega | (congr 1; omega)

@[simp] theorem cField_formatC : cField (formatC op z a b c) = c := by
  apply BitVec.eq_of_getLsbD_eq
  intro i hi
  simp only [formatC, cField, BitVec.getLsbD_append, BitVec.getLsbD_extractLsb', decide_eq_true hi, Bool.true_and]
  split_ifs <;> first | omega | (congr 1; omega)

theorem formatC_and (op' z' : BitVec 8) (a' b' c' : BitVec 16) :
    formatC op z a b c &&& formatC op' z' a' b' c' =
      formatC (op &&& op') (z &&& z') (a &&& a') (b &&& b') (c &&& c') := by
  apply BitVec.eq_of_getLsbD_eq
  intro i _
  simp only [formatC, BitVec.getLsbD_and, BitVec.getLsbD_append]
  split_ifs <;> rfl

theorem formatC_inj {op op' z z' : BitVec 8} {a a' b b' c c' : BitVec 16} :
    formatC op z a b c = formatC op' z' a' b' c' ↔ op = op' ∧ z = z' ∧ a = a' ∧ b = b' ∧ c = c' := by
  constructor
  · intro h
    have h1 := congrArg opField h
    have h2 := congrArg zField h
    have h3 := congrArg aField h
    have h4 := congrArg bField h
    have h5 := congrArg cField h
    simp only [opField_formatC, zField_formatC, aField_formatC, bField_formatC, cField_formatC] at h1 h2 h3 h4 h5
    exact ⟨h1, h2, h3, h4, h5⟩
  · rintro ⟨rfl, rfl, rfl, rfl, rfl⟩; rfl

end

/-! ## Format F (R92) -/

section
variable (op : BitVec 8) (z1 : BitVec 7) (bv : Bool) (z2 : BitVec 16) (n : BitVec 32) (w : RequestWord)

theorem formatF_fields : formatF (opField w) (z1Field w) (bvField w) (z2Field w) (nField w) = w := by
  apply BitVec.eq_of_getLsbD_eq
  intro i hi
  simp only [formatF, opField, z1Field, bvField, z2Field, nField, BitVec.getLsbD_append, BitVec.getLsbD_extractLsb',
    BitVec.getLsbD_ofBool]
  split_ifs <;> (rw [decide_eq_true (by omega), Bool.true_and]; congr 1; omega)

@[simp] theorem opField_formatF : opField (formatF op z1 bv z2 n) = op := by
  apply BitVec.eq_of_getLsbD_eq
  intro i hi
  simp only [formatF, opField, BitVec.getLsbD_append, BitVec.getLsbD_extractLsb', decide_eq_true hi, Bool.true_and]
  split_ifs <;> first | omega | (congr 1; omega)

@[simp] theorem z1Field_formatF : z1Field (formatF op z1 bv z2 n) = z1 := by
  apply BitVec.eq_of_getLsbD_eq
  intro i hi
  simp only [formatF, z1Field, BitVec.getLsbD_append, BitVec.getLsbD_extractLsb', decide_eq_true hi, Bool.true_and]
  split_ifs <;> first | omega | (congr 1; omega)

@[simp] theorem bvField_formatF : bvField (formatF op z1 bv z2 n) = bv := by
  simp only [bvField, formatF, BitVec.getLsbD_append, BitVec.getLsbD_ofBool]
  split_ifs <;> first | omega | simp

@[simp] theorem z2Field_formatF : z2Field (formatF op z1 bv z2 n) = z2 := by
  apply BitVec.eq_of_getLsbD_eq
  intro i hi
  simp only [formatF, z2Field, BitVec.getLsbD_append, BitVec.getLsbD_extractLsb', decide_eq_true hi, Bool.true_and]
  split_ifs <;> first | omega | (congr 1; omega)

@[simp] theorem nField_formatF : nField (formatF op z1 bv z2 n) = n := by
  apply BitVec.eq_of_getLsbD_eq
  intro i hi
  simp only [formatF, nField, BitVec.getLsbD_append, BitVec.getLsbD_extractLsb', decide_eq_true hi, Bool.true_and]
  split_ifs <;> first | omega | (congr 1; omega)

theorem formatF_and (op' : BitVec 8) (z1' : BitVec 7) (bv' : Bool) (z2' : BitVec 16) (n' : BitVec 32) :
    formatF op z1 bv z2 n &&& formatF op' z1' bv' z2' n' =
      formatF (op &&& op') (z1 &&& z1') (bv && bv') (z2 &&& z2') (n &&& n') := by
  apply BitVec.eq_of_getLsbD_eq
  intro i _
  simp only [formatF, BitVec.getLsbD_and, BitVec.getLsbD_append, BitVec.getLsbD_ofBool]
  split_ifs <;> first | rfl | (cases bv <;> cases bv' <;> simp)

theorem formatF_inj {op op' : BitVec 8} {z1 z1' : BitVec 7} {bv bv' : Bool} {z2 z2' : BitVec 16} {n n' : BitVec 32} :
    formatF op z1 bv z2 n = formatF op' z1' bv' z2' n' ↔ op = op' ∧ z1 = z1' ∧ bv = bv' ∧ z2 = z2' ∧ n = n' := by
  constructor
  · intro h
    have h1 := congrArg opField h
    have h2 := congrArg z1Field h
    have h3 := congrArg bvField h
    have h4 := congrArg z2Field h
    have h5 := congrArg nField h
    simp only [opField_formatF, z1Field_formatF, bvField_formatF, z2Field_formatF, nField_formatF] at h1 h2 h3 h4 h5
    exact ⟨h1, h2, h3, h4, h5⟩
  · rintro ⟨rfl, rfl, rfl, rfl, rfl⟩; rfl

end

/-! ## The rows of the opcode map (R94) -/

section
variable (w : RequestWord)

theorem sfxRow_hits : sfxRow.hits w = true ↔ opField w = 0x01 ∧ zField w = 0 := by
  have hm : sfxRow.mask = formatC 0xFF 0xFF 0 0 0 := rfl
  have hp : sfxRow.pattern = formatC 0x01 0 0 0 0 := rfl
  conv_lhs => rw [OpRow.hits, hm, hp, ← formatC_fields w, formatC_and, beq_iff_eq, formatC_inj]
  simp [show ∀ v : BitVec 8, v &&& 255#8 = v from fun v => BitVec.and_allOnes]

theorem musicRow_hits : musicRow.hits w = true ↔ opField w = 0x02 ∧ zField w = 0 := by
  have hm : musicRow.mask = formatC 0xFF 0xFF 0 0 0 := rfl
  have hp : musicRow.pattern = formatC 0x02 0 0 0 0 := rfl
  conv_lhs => rw [OpRow.hits, hm, hp, ← formatC_fields w, formatC_and, beq_iff_eq, formatC_inj]
  simp [show ∀ v : BitVec 8, v &&& 255#8 = v from fun v => BitVec.and_allOnes]

theorem statRow_hits : statRow.hits w = true ↔ opField w = 0x04 ∧ zField w = 0 ∧ bField w = 0 ∧ cField w = 0 := by
  have hm : statRow.mask = formatC 0xFF 0xFF 0 0xFFFF 0xFFFF := rfl
  have hp : statRow.pattern = formatC 0x04 0 0 0 0 := rfl
  conv_lhs => rw [OpRow.hits, hm, hp, ← formatC_fields w, formatC_and, beq_iff_eq, formatC_inj]
  simp [show ∀ v : BitVec 8, v &&& 255#8 = v from fun v => BitVec.and_allOnes,
    show ∀ v : BitVec 16, v &&& 65535#16 = v from fun v => BitVec.and_allOnes]

theorem fillRow_hits : fillRow.hits w = true ↔ opField w = 0x03 ∧ z1Field w = 0 ∧ z2Field w = 0 := by
  have hm : fillRow.mask = formatF 0xFF 0x7F false 0xFFFF 0 := rfl
  have hp : fillRow.pattern = formatF 0x03 0 false 0 0 := rfl
  conv_lhs => rw [OpRow.hits, hm, hp, ← formatF_fields w, formatF_and, beq_iff_eq, formatF_inj]
  simp [show ∀ v : BitVec 8, v &&& 255#8 = v from fun v => BitVec.and_allOnes,
    show ∀ v : BitVec 7, v &&& 127#7 = v from fun v => BitVec.and_allOnes,
    show ∀ v : BitVec 16, v &&& 65535#16 = v from fun v => BitVec.and_allOnes]

end

end Sys2Proof
end

