-- ==== Sys2Proof/Laws/Sequencer.lean ====
section
/-! SUPPORT. What `ACTIVATE` and `ADVANCE` can do (41_music_sequencer.md): one spec lemma each, and their frames. -/

namespace Sys2Proof.Machine

/-! ## ACTIVATE -/

/-- Triggering initialises the enabled slots' channels in the mask and changes nothing else (R148). -/
theorem triggerRow_spec (row : SongRow) (s : State) :
    OnlyChannelsChange s (triggerRow row s) ∧
      ∀ k, (triggerRow row s).chan k =
        if maskHas s.mus.mask k ∧ (row.slot k).disabled = false then triggered (row.slot k).sfx 0 false true
        else s.chan k := by
  refine forChannels_chan
    (g := fun m _ k v => if maskHas m.mask k ∧ (row.slot k).disabled = false then triggered (row.slot k).sfx 0 false true
      else v) (fun k s => ?_) s
  split
  · exact ⟨⟨rfl, rfl, rfl, rfl, rfl⟩, fun j => initChannel_chan ..⟩
  · refine ⟨⟨rfl, rfl, rfl, rfl, rfl⟩, fun j => ?_⟩
    split <;> simp_all

/-- The music record `ACTIVATE(p)` leaves (R145, R147). -/
theorem activateRow_mus (p : Fin 64) (s : State) :
    (activateRow p s).mus =
      { s.mus with
        pattern := some p
        offset := 0
        master := pickMaster s.env.tables (s.env.tables.songRow p)
        speed := masterSpeed s.env.tables (s.env.tables.songRow p)
          (pickMaster s.env.tables (s.env.tables.songRow p)) } :=
  (triggerRow_spec _ _).1.1

theorem activateRow_frame (p : Fin 64) (s : State) : OnlyCoreChanges s (activateRow p s) :=
  (triggerRow_spec _ _).1.2

/-- The channels `ACTIVATE(p)` leaves (R148). -/
theorem activateRow_chan (p : Fin 64) (s : State) (k : Fin 4) :
    (activateRow p s).chan k =
      if maskHas s.mus.mask k ∧ ((s.env.tables.songRow p).slot k).disabled = false then
        triggered ((s.env.tables.songRow p).slot k).sfx 0 false true
      else s.chan k :=
  (triggerRow_spec _ _).2 k

@[simp] theorem deactivate_chan (s : State) (k : Fin 4) : (deactivate s).chan k = s.chan k := rfl
@[simp] theorem deactivate_mus (s : State) :
    (deactivate s).mus = { s.mus with pattern := none, offset := 0, master := none, speed := -1 } := rfl

theorem activate_cases (p : Int) (s : State) :
    (∃ i : Fin 64, p = i.val ∧ activate p s = activateRow i s) ∨
      ((p < 0 ∨ 64 ≤ p) ∧ activate p s = deactivate s) := by
  unfold activate
  cases h : asIndex 64 p with
  | some i => exact .inl ⟨i, asIndex_eq_some.mp h, rfl⟩
  | none => exact .inr ⟨by simpa using asIndex_eq_none.mp h, rfl⟩

theorem activate_val (i : Fin 64) (s : State) : activate i.val s = activateRow i s := by
  unfold activate; rw [asIndex_val]

theorem activate_outside {p : Int} (h : p < 0 ∨ 64 ≤ p) (s : State) : activate p s = deactivate s := by
  unfold activate; rw [asIndex_eq_none.mpr (by simpa using h)]

theorem activate_frame (p : Int) (s : State) : OnlyCoreChanges s (activate p s) := by
  rcases activate_cases p s with ⟨i, -, h⟩ | ⟨-, h⟩ <;> rw [h]
  · exact activateRow_frame i s
  · exact ⟨rfl, rfl, rfl, rfl⟩

/-- A channel after `ACTIVATE` is untouched, or triggered as a music channel. -/
theorem activate_chan_cases (p : Int) (s : State) (k : Fin 4) :
    (activate p s).chan k = s.chan k ∨ ∃ x, (activate p s).chan k = triggered x 0 false true := by
  rcases activate_cases p s with ⟨i, -, h⟩ | ⟨-, h⟩ <;> rw [h]
  · rw [activateRow_chan]; split
    · exact .inr ⟨_, rfl⟩
    · exact .inl rfl
  · exact .inl rfl

/-! ## Master selection -/

/-- The first `n` slots leave as best the enabled slot of smallest raw speed, lowest index among equals. -/
def IsBest (m : Memory) (row : SongRow) (n : Nat) : Option (Fin 4) → Prop
  | none => ∀ k : Fin 4, k.val < n → (row.slot k).disabled = true
  | some j => j.val < n ∧ (row.slot j).disabled = false ∧ ∀ k : Fin 4, k.val < n → (row.slot k).disabled = false →
      (m.sfxHdr (row.slot j).sfx).speed ≤ (m.sfxHdr (row.slot k).sfx).speed ∧
      (k < j → (m.sfxHdr (row.slot j).sfx).speed < (m.sfxHdr (row.slot k).sfx).speed)

theorem IsBest_pickStep {m : Memory} {row : SongRow} {k : Fin 4} {best : Option (Fin 4)}
    (h : IsBest m row k.val best) : IsBest m row (k.val + 1) (pickStep m row k best) := by
  have hk : ∀ j : Fin 4, j.val < k.val + 1 → j.val < k.val ∨ j = k := fun j hj => by
    rcases Nat.lt_or_ge j.val k.val with hlt | hge
    · exact .inl hlt
    · exact .inr (Fin.ext (by omega))
  unfold pickStep
  cases hd : (row.slot k).disabled with
  | true =>
    rw [if_pos rfl]
    cases best with
    | none =>
      intro j hj
      rcases hk j hj with hlt | rfl
      · exact h j hlt
      · exact hd
    | some b =>
      refine ⟨by have := h.1; omega, h.2.1, fun j hj hj' => ?_⟩
      rcases hk j hj with hlt | rfl
      · exact h.2.2 j hlt hj'
      · rw [hd] at hj'; cases hj'
  | false =>
    rw [if_neg (by simp)]
    cases best with
    | none =>
      refine ⟨by omega, hd, fun j hj hj' => ?_⟩
      rcases hk j hj with hlt | rfl
      · rw [h j hlt] at hj'; cases hj'
      · exact ⟨le_refl _, fun hlt => absurd hlt (lt_irrefl _)⟩
    | some b =>
      obtain ⟨hb, hbd, hmin⟩ := h
      dsimp only
      split
      · rename_i hlt
        refine ⟨by omega, hd, fun j hj hj' => ?_⟩
        rcases hk j hj with hjk | rfl
        · have := (hmin j hjk hj').1
          exact ⟨(lt_of_lt_of_le hlt this).le, fun _ => lt_of_lt_of_le hlt this⟩
        · exact ⟨le_refl _, fun hlt => absurd hlt (lt_irrefl _)⟩
      · rename_i hge
        refine ⟨by omega, hbd, fun j hj hj' => ?_⟩
        rcases hk j hj with hjk | rfl
        · exact hmin j hjk hj'
        · exact ⟨not_lt.mp hge, fun hlt => by rw [Fin.lt_def] at hlt; omega⟩

theorem pickMaster_best (m : Memory) (row : SongRow) : IsBest m row 4 (pickMaster m row) := by
  have h0 : IsBest m row 0 none := fun k hk => absurd hk (by omega)
  exact IsBest_pickStep (k := 3) (IsBest_pickStep (k := 2) (IsBest_pickStep (k := 1) (IsBest_pickStep (k := 0) h0)))

theorem masterSpeed_range (m : Memory) (row : SongRow) (o : Option (Fin 4)) :
    (o = none ↔ masterSpeed m row o = -1) ∧
      (masterSpeed m row o = -1 ∨ (1 ≤ masterSpeed m row o ∧ masterSpeed m row o ≤ 255)) := by
  cases o with
  | none => exact ⟨by simp [masterSpeed], .inl rfl⟩
  | some k =>
    have h1 := effectiveSpeed_le (m.sfxHdr (row.slot k).sfx)
    have h2 : 1 ≤ effectiveSpeed (m.sfxHdr (row.slot k).sfx) := le_max_left _ _
    refine ⟨⟨fun h => (by cases h), fun h => ?_⟩, .inr ⟨?_, ?_⟩⟩ <;> simp only [masterSpeed] at * <;> omega

/-! ## ADVANCE -/

@[simp] theorem advancePosition_chan (s : State) (k : Fin 4) : (advancePosition s).chan k = s.chan k := rfl
@[simp] theorem advancePosition_env (s : State) : (advancePosition s).env = s.env := rfl
@[simp] theorem advancePosition_mus (s : State) :
    (advancePosition s).mus =
      { s.mus with offset := s.mus.offset + positionStep (s.mus.speed : Rat),
                   volume := fadeVolume s.mus.volume s.mus.volumeStep } := rfl

/-- Fade-out completion idles the music channels and stops the music, and nothing else (R153). -/
theorem finishFadeOut_spec (s : State) :
    (finishFadeOut s).mus = { s.mus with pattern := none } ∧ OnlyCoreChanges s (finishFadeOut s) ∧
      ∀ k, (finishFadeOut s).chan k =
        if (s.chan k).isMusic = true then { s.chan k with sfxId := none } else s.chan k := by
  have h := forChannels_chan (f := fun k s => if (s.chan k).isMusic then idleChannel k s else s)
    (g := fun _ _ _ v => if v.isMusic = true then { v with sfxId := none } else v)
    (fun k s => by
      split
      · exact ⟨⟨rfl, rfl, rfl, rfl, rfl⟩, fun j => idleChannel_chan s k j⟩
      · exact ⟨⟨rfl, rfl, rfl, rfl, rfl⟩, fun j => by split <;> simp_all⟩) s
  obtain ⟨⟨hm, hf⟩, hc⟩ := h
  refine ⟨?_, hf, hc⟩
  simp only [finishFadeOut, State.setMus_mus, hm]

theorem startsAt_val (m : Memory) (p : Fin 64) : startsAt m p.val = (m.songRow p).startFlag := by
  unfold startsAt; rw [asIndex_val]

/-- The loop scan finds the nearest start flag at or below `i`, or 0 (R155). -/
theorem loopScan_spec (m : Memory) (i : Nat) :
    loopScan m i ≤ i ∧ (loopScan m i = 0 ∨ startsAt m (loopScan m i) = true) ∧
      ∀ j, loopScan m i < j → j ≤ i → startsAt m j = false := by
  induction i with
  | zero => exact ⟨Nat.le_refl 0, .inl rfl, fun j h1 h2 => by omega⟩
  | succ i ih =>
    unfold loopScan
    split
    · rename_i hs
      exact ⟨Nat.le_refl _, .inr hs, fun j h1 h2 => by omega⟩
    · rename_i hs
      obtain ⟨h1, h2, h3⟩ := ih
      refine ⟨by omega, h2, fun j hj hj' => ?_⟩
      rcases Nat.lt_or_ge j (i + 1) with hlt | hge
      · exact h3 j hj (by omega)
      · rw [show j = i + 1 by omega]; simpa using hs

/-- Everything the end of a pattern can do: `ACTIVATE` of some pattern, with `count` kept or increased (R154). -/
theorem endPattern_cases (p : Fin 64) (s : State) :
    ∃ (q : Int) (n : BitVec 16), endPattern p s = activate q (s.setMus { s.mus with count := n }) := by
  unfold endPattern
  dsimp only
  split
  · exact ⟨-1, s.mus.count, rfl⟩
  · exact ⟨_, _, rfl⟩

theorem fadeOutDone_advancePosition (s : State) :
    fadeOutDone (advancePosition s).mus = true ↔
      s.mus.volumeStep.isNeg = true ∧ fadeVolume s.mus.volume s.mus.volumeStep ≤ 0 := by
  unfold fadeOutDone
  rw [Bool.and_eq_true, decide_eq_true_eq]
  rfl

/-- Everything `ADVANCE` can do: finish a fade-out, end a pattern, or only move on (R153, R154). -/
theorem advance_cases (p : Fin 64) (s : State) :
    (fadeOutDone (advancePosition s).mus = true ∧ advance p s = finishFadeOut (advancePosition s)) ∨
    (fadeOutDone (advancePosition s).mus = false ∧ 32 ≤ s.mus.offset + positionStep (s.mus.speed : Rat) ∧
      advance p s = endPattern p (advancePosition s)) ∨
    (fadeOutDone (advancePosition s).mus = false ∧ s.mus.offset + positionStep (s.mus.speed : Rat) < 32 ∧
      advance p s = advancePosition s) := by
  unfold advance
  cases hf : fadeOutDone (advancePosition s).mus with
  | true => exact .inl ⟨rfl, by simp only [hf, if_true]⟩
  | false =>
    by_cases ho : 32 ≤ s.mus.offset + positionStep (s.mus.speed : Rat)
    · exact .inr (.inl ⟨rfl, ho, by simp only [hf]; exact if_pos ho⟩)
    · exact .inr (.inr ⟨rfl, not_le.mp ho, by simp only [hf]; exact if_neg ho⟩)

theorem endPattern_frame (p : Fin 64) (s : State) : OnlyCoreChanges s (endPattern p s) := by
  obtain ⟨q, n, h⟩ := endPattern_cases p s
  rw [h]
  exact activate_frame q _

theorem advance_frame (p : Fin 64) (s : State) : OnlyCoreChanges s (advance p s) := by
  rcases advance_cases p s with ⟨-, h⟩ | ⟨-, -, h⟩ | ⟨-, -, h⟩ <;> rw [h]
  · exact (finishFadeOut_spec _).2.1
  · exact endPattern_frame p _
  · exact ⟨rfl, rfl, rfl, rfl⟩

end Sys2Proof.Machine
end

