-- ==== Sys2Proof/Laws/Synth.lean ====
section
/-! SUPPORT. What `SAMPLECH` can do (42_sample_synthesizer.md): the frame of each phase, the range of its sample. -/

namespace Sys2Proof.Machine

theorem sequencerHook_cases (c : Fin 4) (s : State) :
    (∃ p, s.mus.pattern = some p ∧ s.mus.master = some c ∧ sequencerHook c s = advance p s) ∨
      (¬(s.mus.pattern ≠ none ∧ s.mus.master = some c) ∧ sequencerHook c s = s) := by
  unfold sequencerHook
  cases h : s.mus.pattern with
  | none => exact .inr ⟨by simp, rfl⟩
  | some p =>
    dsimp only
    split
    · rename_i hm; exact .inl ⟨p, rfl, hm, rfl⟩
    · rename_i hm; exact .inr ⟨by simp [hm], rfl⟩

theorem sequencerHook_stopped {c : Fin 4} {s : State} (h : s.mus.pattern = none) : sequencerHook c s = s := by
  unfold sequencerHook; rw [h]

theorem sequencerHook_frame (c : Fin 4) (s : State) : OnlyCoreChanges s (sequencerHook c s) := by
  rcases sequencerHook_cases c s with ⟨p, -, -, h⟩ | ⟨-, h⟩ <;> rw [h]
  · exact advance_frame p s
  · exact ⟨rfl, rfl, rfl, rfl⟩

theorem synth_idle {c : Fin 4} {s : State} (h : (s.chan c).sfxId = none) : synth c s = (s, 0) := by
  unfold synth; rw [h]

theorem synth_playing {c : Fin 4} {s : State} {x : Fin 64} (h : (s.chan c).sfxId = some x) :
    synth c s = (s.setChan c (playChannel s.env x (s.chan c)).1, (playChannel s.env x (s.chan c)).2) := by
  unfold synth; rw [h]

/-- Synthesis changes the channel it evaluates and nothing else. -/
theorem synth_frame (c : Fin 4) (s : State) :
    OnlyChannelsChange s (synth c s).1 ∧ ∀ k, k ≠ c → (synth c s).1.chan k = s.chan k := by
  cases h : (s.chan c).sfxId with
  | none => rw [synth_idle h]; exact ⟨⟨rfl, rfl, rfl, rfl, rfl⟩, fun k _ => rfl⟩
  | some x =>
    rw [synth_playing h]
    exact ⟨⟨rfl, rfl, rfl, rfl, rfl⟩, fun k hk => State.setChan_chan_ne _ _ _ _ hk⟩

theorem sampleCh_frame (c : Fin 4) (s : State) : OnlyCoreChanges s (sampleCh c s).1 := by
  obtain ⟨h1, h2, h3, h4⟩ := sequencerHook_frame c s
  obtain ⟨⟨-, g1, g2, g3, g4⟩, -⟩ := synth_frame c (sequencerHook c s)
  exact ⟨g1.trans h1, g2.trans h2, g3.trans h3, g4.trans h4⟩

theorem playChannel_sample_bounds (e : Env) (x : Fin 64) (ch : Channel) :
    -32767 ≤ (playChannel e x ch).2 ∧ (playChannel e x ch).2 ≤ 32767 := by
  unfold playChannel
  dsimp only
  split
  · norm_num
  · exact convert_bounds (normalVolume_nonneg _) (normalVolume_le_one _) (waveAt_bounds _ _ _)

theorem synth_sample_bounds (c : Fin 4) (s : State) : -32767 ≤ (synth c s).2 ∧ (synth c s).2 ≤ 32767 := by
  cases h : (s.chan c).sfxId with
  | none => rw [synth_idle h]; norm_num
  | some x => rw [synth_playing h]; exact playChannel_sample_bounds _ _ _

/-! ## `Book`, field by field (R177) -/

section
variable (nxt : Rat) (note : Note) (ch : Channel)

@[simp] theorem book_offset : (book nxt note ch).offset = nxt := by unfold book; split_ifs <;> rfl
@[simp] theorem book_phase : (book nxt note ch).phase = ch.phase := by unfold book; split_ifs <;> rfl
@[simp] theorem book_canLoop : (book nxt note ch).canLoop = ch.canLoop := by unfold book; split_ifs <;> rfl
@[simp] theorem book_isMusic : (book nxt note ch).isMusic = ch.isMusic := by unfold book; split_ifs <;> rfl
theorem book_sfxId : (book nxt note ch).sfxId = if 32 ≤ nxt then none else ch.sfxId := by
  unfold book Config.nnote; split_ifs <;> rfl
theorem book_prevKey :
    (book nxt note ch).prevKey = if nxt < 32 ∧ floor nxt ≠ floor ch.offset then note.key else ch.prevKey := by
  unfold book Config.nnote
  by_cases h : 32 ≤ nxt
  · rw [if_pos h, if_neg fun hc => absurd hc.1 (not_lt.mpr h)]
  · rw [if_neg h]
    by_cases hn : floor nxt ≠ floor ch.offset
    · rw [if_pos hn, if_pos ⟨not_le.mp h, hn⟩]
    · rw [if_neg hn, if_neg fun hc => hn hc.2]
theorem book_prevVolume :
    (book nxt note ch).prevVolume =
      if nxt < 32 ∧ floor nxt ≠ floor ch.offset then normalVolume note else ch.prevVolume := by
  unfold book Config.nnote
  by_cases h : 32 ≤ nxt
  · rw [if_pos h, if_neg fun hc => absurd hc.1 (not_lt.mpr h)]
  · rw [if_neg h]
    by_cases hn : floor nxt ≠ floor ch.offset
    · rw [if_pos hn, if_pos ⟨not_le.mp h, hn⟩]
    · rw [if_neg hn, if_neg fun hc => hn hc.2]

end

/-! ## A playing channel, field by field (R173 to R181) -/

section
variable (e : Env) (x : Fin 64) (ch : Channel)

@[simp] theorem playChannel_offset :
    (playChannel e x ch).1.offset = nextOffset (e.tables.sfxHdr x) ch := by
  unfold playChannel; dsimp only; split <;> simp
@[simp] theorem playChannel_canLoop : (playChannel e x ch).1.canLoop = ch.canLoop := by
  unfold playChannel; dsimp only; split <;> simp
@[simp] theorem playChannel_isMusic : (playChannel e x ch).1.isMusic = ch.isMusic := by
  unfold playChannel; dsimp only; split <;> simp
theorem playChannel_sfxId :
    (playChannel e x ch).1.sfxId = if 32 ≤ nextOffset (e.tables.sfxHdr x) ch then none else ch.sfxId := by
  unfold playChannel; dsimp only; split <;> exact book_sfxId _ _ _
theorem playChannel_phase :
    (playChannel e x ch).1.phase =
      if normalVolume (currentNote e.tables x ch) = 0 then ch.phase
      else ch.phase + Config.phaseInc (currentNote e.tables x ch).key := by
  unfold playChannel; dsimp only; split <;> simp
theorem playChannel_prevKey :
    (playChannel e x ch).1.prevKey =
      if nextOffset (e.tables.sfxHdr x) ch < 32 ∧ floor (nextOffset (e.tables.sfxHdr x) ch) ≠ floor ch.offset then
        (currentNote e.tables x ch).key else ch.prevKey := by
  unfold playChannel; dsimp only; split <;> exact book_prevKey _ _ _
theorem playChannel_prevVolume :
    (playChannel e x ch).1.prevVolume =
      if nextOffset (e.tables.sfxHdr x) ch < 32 ∧ floor (nextOffset (e.tables.sfxHdr x) ch) ≠ floor ch.offset then
        normalVolume (currentNote e.tables x ch) else ch.prevVolume := by
  unfold playChannel; dsimp only; split <;> exact book_prevVolume _ _ _
theorem playChannel_sample :
    (playChannel e x ch).2 =
      if normalVolume (currentNote e.tables x ch) = 0 then 0
      else convert (normalVolume (currentNote e.tables x ch))
        (waveAt e (currentNote e.tables x ch).waveform ch.phase) := by
  unfold playChannel; dsimp only; split <;> rfl

end

/-! ## The loop-range wrap (R174) -/

/-- Where the wrap applies the result lies in the loop range and is no larger; elsewhere nothing changes. -/
theorem loopWrap_spec (h : SfxHeader) (l : Bool) (nxt : Rat) :
    (h.loopStart < h.loopEnd ∧ (h.loopStart.val : Rat) ≤ nxt ∧ l = true ∧
      (h.loopStart.val : Rat) ≤ loopWrap h l nxt ∧ loopWrap h l nxt < (h.loopEnd.val : Rat) ∧ loopWrap h l nxt ≤ nxt) ∨
    (¬(h.loopStart < h.loopEnd ∧ (h.loopStart.val : Rat) ≤ nxt ∧ l = true) ∧ loopWrap h l nxt = nxt) := by
  unfold loopWrap
  split
  · rename_i hc
    obtain ⟨h1, h2, h3⟩ := hc
    have hpos : (0 : Rat) < (h.loopEnd.val : Rat) - (h.loopStart.val : Rat) := by
      rw [sub_pos]; exact_mod_cast h1
    have a1 := qmod_nonneg (a := nxt - (h.loopStart.val : Rat)) hpos
    have a2 := qmod_lt (a := nxt - (h.loopStart.val : Rat)) hpos
    have a3 := qmod_le (a := nxt - (h.loopStart.val : Rat)) (by linarith) hpos
    exact .inl ⟨h1, h2, h3, by linarith, by linarith, by linarith⟩
  · exact .inr ⟨by assumption, rfl⟩

/-- The next position is never negative and at most one step on (R228). -/
theorem nextOffset_bounds (h : SfxHeader) (ch : Channel) (h0 : 0 ≤ ch.offset) :
    0 ≤ nextOffset h ch ∧ nextOffset h ch ≤ ch.offset + 1 / 183 := by
  have hp := positionStep_pos (effectiveSpeed_pos h)
  have hl := positionStep_le (effectiveSpeed_pos h)
  unfold nextOffset
  rcases loopWrap_spec h ch.canLoop (ch.offset + positionStep (effectiveSpeed h : Rat)) with
    ⟨-, -, -, h1, -, h3⟩ | ⟨-, h1⟩
  · have : (0 : Rat) ≤ (h.loopStart.val : Rat) := by positivity
    constructor <;> linarith
  · rw [h1]; constructor <;> linarith

end Sys2Proof.Machine
end

