-- ==== Sys2Proof/Laws/Factor.lean ====
section
/-! SUPPORT. What the sequencer does to a channel is chosen by the music record and the inputs alone (41 R160): one
function per channel, which keeps it, triggers it, or idles it if it is a music channel. -/

namespace Sys2Proof.Machine

/-- The three things the sequencer can do to a channel record (R148, R153). -/
inductive SeqMove where
  | keep
  | trigger (x : Fin 64)
  | idleMusic
  deriving DecidableEq, Repr

/-- The channel record a move leaves. -/
def SeqMove.apply : SeqMove → Channel → Channel
  | .keep, ch => ch
  | .trigger x, _ => triggered x 0 false true
  | .idleMusic, ch => if ch.isMusic = true then { ch with sfxId := none } else ch

/-- `f` is decided by the music record and the inputs: it leaves `m` and makes the moves `g`. -/
abbrev Factors (m : Music) (e : Env) (f : State → State) : Prop :=
  ∃ (m' : Music) (g : Fin 4 → SeqMove), ∀ s : State, s.mus = m → s.env = e →
    (f s).mus = m' ∧ OnlyCoreChanges s (f s) ∧ ∀ k, (f s).chan k = (g k).apply (s.chan k)

/-- The music record after steps 1 and 2 of `ADVANCE` (R151, R152). -/
abbrev movedOn (m : Music) : Music :=
  { m with offset := m.offset + positionStep (m.speed : Rat), volume := fadeVolume m.volume m.volumeStep }

theorem activate_factors (p : Int) (m : Music) (e : Env) : Factors m e (activate p) := by
  cases h : asIndex 64 p with
  | none =>
    rw [asIndex_eq_none] at h
    refine ⟨{ m with pattern := none, offset := 0, master := none, speed := -1 }, fun _ => .keep, ?_⟩
    rintro s rfl rfl
    rw [activate_outside h s]
    exact ⟨rfl, ⟨rfl, rfl, rfl, rfl⟩, fun k => rfl⟩
  | some i =>
    rw [asIndex_eq_some] at h
    subst h
    refine ⟨{ m with
      pattern := some i
      offset := 0
      master := pickMaster e.tables (e.tables.songRow i)
      speed := masterSpeed e.tables (e.tables.songRow i) (pickMaster e.tables (e.tables.songRow i)) },
      fun k => if maskHas m.mask k ∧ ((e.tables.songRow i).slot k).disabled = false then
      .trigger ((e.tables.songRow i).slot k).sfx else .keep, ?_⟩
    rintro s rfl rfl
    rw [activate_val]
    refine ⟨activateRow_mus i s, activateRow_frame i s, fun k => ?_⟩
    rw [activateRow_chan]
    dsimp only
    split <;> rfl

theorem endPattern_factors (p : Fin 64) (m : Music) (e : Env) : Factors m e (endPattern p) := by
  by_cases hs : (e.tables.songRow p).stopFlag = true
  · obtain ⟨m', g, h⟩ := activate_factors (-1) m e
    refine ⟨m', g, ?_⟩
    rintro s rfl rfl
    have : endPattern p s = activate (-1) s := by unfold endPattern; dsimp only; rw [if_pos hs]
    rw [this]; exact h s rfl rfl
  · obtain ⟨m', g, h⟩ := activate_factors
      (if (e.tables.songRow p).loopFlag then (loopScan e.tables p.val : Nat) else (p.val : Int) + 1)
      { m with count := m.count + 1 } e
    refine ⟨m', g, ?_⟩
    rintro s rfl rfl
    have he : endPattern p s = activate
        (if (s.env.tables.songRow p).loopFlag then (loopScan s.env.tables p.val : Nat) else (p.val : Int) + 1)
        (s.setMus { s.mus with count := s.mus.count + 1 }) := by unfold endPattern; dsimp only; rw [if_neg hs]
    rw [he]; exact h _ rfl rfl

theorem advance_factors (p : Fin 64) (m : Music) (e : Env) : Factors m e (advance p) := by
  obtain ⟨m', g, h⟩ := endPattern_factors p (movedOn m) e
  by_cases hf : fadeOutDone (movedOn m) = true
  · refine ⟨{ movedOn m with pattern := none }, fun _ => .idleMusic, ?_⟩
    rintro s rfl rfl
    have he : advance p s = finishFadeOut (advancePosition s) := by
      unfold advance; dsimp only; rw [if_pos (by rw [advancePosition_mus]; exact hf)]
    rw [he]
    obtain ⟨a, b, c⟩ := finishFadeOut_spec (advancePosition s)
    exact ⟨a, b, c⟩
  · by_cases ho : 32 ≤ m.offset + positionStep (m.speed : Rat)
    · refine ⟨m', g, ?_⟩
      rintro s rfl rfl
      have he : advance p s = endPattern p (advancePosition s) := by
        unfold advance; dsimp only; rw [if_neg (by rw [advancePosition_mus]; exact hf)]; exact if_pos ho
      rw [he]; exact h (advancePosition s) rfl rfl
    · refine ⟨movedOn m, fun _ => .keep, ?_⟩
      rintro s rfl rfl
      have he : advance p s = advancePosition s := by
        unfold advance; dsimp only; rw [if_neg (by rw [advancePosition_mus]; exact hf)]; exact if_neg ho
      rw [he]
      exact ⟨rfl, ⟨rfl, rfl, rfl, rfl⟩, fun k => rfl⟩

end Sys2Proof.Machine
end

