-- ==== Sys2Proof/Laws/Fill.lean ====
section
/-! SUPPORT. What `TICK` and `FILL` can do (43_mixer_fill.md): the frame of a tick, splitting, the accumulator. -/

namespace Sys2Proof.Machine

theorem sampleCh_sample_bounds (c : Fin 4) (s : State) : -32767 ≤ (sampleCh c s).2 ∧ (sampleCh c s).2 ≤ 32767 :=
  synth_sample_bounds _ _

theorem mixFrom_frame (cs : List (Fin 4)) (s : State) (acc : Int) : OnlyCoreChanges s (mixFrom cs s acc).1 := by
  induction cs generalizing s acc with
  | nil => exact ⟨rfl, rfl, rfl, rfl⟩
  | cons c cs ih =>
    obtain ⟨h1, h2, h3, h4⟩ := sampleCh_frame c s
    obtain ⟨g1, g2, g3, g4⟩ := ih (sampleCh c s).1 (acc + asr3 (sampleCh c s).2)
    exact ⟨g1.trans h1, g2.trans h2, g3.trans h3, g4.trans h4⟩

/-- A property of the state that every channel evaluation keeps, a mix keeps. -/
theorem mix_induct {P : State → Prop} (h : ∀ c s, P s → P (sampleCh c s).1) {s : State} (hs : P s) : P (mix s).1 := by
  have key : ∀ (cs : List (Fin 4)) (s : State) (acc : Int), P s → P (mixFrom cs s acc).1 := by
    intro cs
    induction cs with
    | nil => intro s acc hs; exact hs
    | cons c cs ih => intro s acc hs; exact ih _ _ (h c s hs)
  exact key _ _ _ hs

/-- A tick appends one frame and changes nothing else outside the core (R190, R192). -/
theorem tick_frame (s : State) :
    (tick s).env = s.env ∧ (tick s).port = s.port ∧ (tick s).resp = s.resp ∧
      (tick s).out = s.out ++ [frameOf (mix s).2] := by
  obtain ⟨h1, h2, h3, h4⟩ := mixFrom_frame Config.chOrder s 0
  refine ⟨h1, h2, h3, ?_⟩
  change (mix s).1.out ++ _ = _
  rw [show (mix s).1.out = s.out from h4]

theorem ticks_succ (n : Nat) (s : State) : ticks (n + 1) s = ticks n (tick s) := rfl

theorem ticks_add (m n : Nat) (s : State) : ticks (m + n) s = ticks n (ticks m s) := by
  induction m generalizing s with
  | zero => rw [Nat.zero_add]; rfl
  | succ m ih => rw [Nat.succ_add, ticks_succ, ticks_succ, ih]

/-- A property of the state that every tick keeps, every FILL keeps. -/
theorem ticks_induct {P : State → Prop} (h : ∀ s, P s → P (tick s)) (n : Nat) {s : State} (hs : P s) :
    P (ticks n s) := by
  induction n generalizing s with
  | zero => exact hs
  | succ n ih => exact ih (h s hs)

/-- `n` ticks append `n` frames and change nothing else outside the core (R193). -/
theorem ticks_frame (n : Nat) (s : State) :
    (ticks n s).env = s.env ∧ (ticks n s).port = s.port ∧ (ticks n s).resp = s.resp ∧
      ∃ fs : List Frame, fs.length = n ∧ (ticks n s).out = s.out ++ fs := by
  induction n generalizing s with
  | zero => exact ⟨rfl, rfl, rfl, [], rfl, by simp [ticks]⟩
  | succ n ih =>
    obtain ⟨h1, h2, h3, h4⟩ := tick_frame s
    obtain ⟨g1, g2, g3, fs, g4, g5⟩ := ih (tick s)
    refine ⟨g1.trans h1, g2.trans h2, g3.trans h3, frameOf (mix s).2 :: fs, by simp [g4], ?_⟩
    rw [ticks_succ, g5, h4, List.append_assoc]; rfl

end Sys2Proof.Machine
end

