-- ==== Sys2Proof/Laws/PerInstr.lean ====
section
/-! SUPPORT. Statements made per instruction (30_encoding.md R94): the encoding of every request matches its own row of
the opcode map, whatever its operands. -/

namespace Sys2Proof.Laws.EncodeHitsRow

def Statement (i : Instr) : Prop := i.row.hits (encode i) = true

theorem sfx (a b c : Int) : Statement (.sfx a b c) := by
  refine (sfxRow_hits _).mpr ⟨?_, ?_⟩ <;> simp [encode]

theorem music (a b c : Int) : Statement (.music a b c) := by
  refine (musicRow_hits _).mpr ⟨?_, ?_⟩ <;> simp [encode]

theorem fill (bv : Bool) (n : Nat) : Statement (.fill bv n) := by
  refine (fillRow_hits _).mpr ⟨?_, ?_, ?_⟩ <;> simp [encode]

theorem stat (r : Int) : Statement (.stat r) := by
  refine (statRow_hits _).mpr ⟨?_, ?_, ?_, ?_⟩ <;> simp [encode]

end Sys2Proof.Laws.EncodeHitsRow
end

