-- ==== Sys2Proof/Tests/Slice0.lean ====
section
/-! SUPPORT. Tests of the model and witnesses of the statements. Expected results are the spec's own: the examples of its
rules and the vectors of 95_test_vectors.md, named in each docstring. -/

namespace Sys2Proof.Tests

set_option Elab.async false

open Sys2Proof.Machine

/-! ## WellFormed: each check refuses an ill-formed term (R93, R97) -/

theorem test_wf_sfx_low : (Instr.sfx (-32769) 0 0).wf = false := by decide
theorem test_wf_sfx_channel_high : (Instr.sfx 0 32768 0).wf = false := by decide
theorem test_wf_sfx_offset_low : (Instr.sfx 0 0 (-32769)).wf = false := by decide
theorem test_wf_music_pattern_high : (Instr.music 32768 0 0).wf = false := by decide
theorem test_wf_music_fade_low : (Instr.music 0 (-32769) 0).wf = false := by decide
theorem test_wf_music_mask_high : (Instr.music 0 0 32768).wf = false := by decide
theorem test_wf_fill_count : (Instr.fill true 4294967296).wf = false := by decide
theorem test_wf_stat_high : (Instr.stat 32768).wf = false := by decide
theorem test_wf_accepts_the_bounds :
    (Instr.sfx (-32768) 32767 (-32768)).wf && (Instr.music 32767 (-32768) 32767).wf &&
      (Instr.fill false 4294967295).wf && (Instr.stat (-32768)).wf = true := by decide

/-! ## Decode: words written out from R91 to R95 (vectors E1 to E19) -/

/-- E1: op 0x01, z 0, A 5, B -1, C 0. -/
theorem test_decode_sfx : decode 0x01000005FFFF0000 = .request (.sfx 5 (-1) 0) := by decide
/-- E4: a negative start offset is sign-extended. -/
theorem test_decode_sfx_negative_offset : decode 0x010000050000FFF9 = .request (.sfx 5 0 (-7)) := by decide
/-- E6: op 0x02, A -1, B 200, C 0. -/
theorem test_decode_music : decode 0x0200FFFF00C80000 = .request (.music (-1) 200 0) := by decide
/-- E7: C is sign-extended. -/
theorem test_decode_music_mask : decode 0x020000000000FFFF = .request (.music 0 0 (-1)) := by decide
/-- E10: op 0x03, BV 1, N 4294967295, unsigned. -/
theorem test_decode_fill : decode 0x03010000FFFFFFFF = .request (.fill true 4294967295) := by decide
/-- E9: BV 0. -/
theorem test_decode_fill_null : decode 0x03000000000016E0 = .request (.fill false 5856) := by decide
/-- E11: op 0x04, A 14. -/
theorem test_decode_stat : decode 0x0400000E00000000 = .request (.stat 14) := by decide
/-- E12: a negative register number. -/
theorem test_decode_stat_negative : decode 0x0400FFFF00000000 = .request (.stat (-1)) := by decide
/-- E13 to E15. -/
theorem test_decode_reserved_control :
    decode 0x0000000000000000 = .reserved .opcode ∧ decode 0x0500000000000000 = .reserved .opcode ∧
      decode 0x01010005FFFF0000 = .reserved .zNotZero := by decide
/-- E16 to E19. -/
theorem test_decode_reserved_fill_stat :
    decode 0x0302000000000001 = .reserved .z1NotZero ∧ decode 0x0301000100000001 = .reserved .z2NotZero ∧
      decode 0x0400000900010000 = .reserved .statBNotZero ∧ decode 0x0400000900000001 = .reserved .statCNotZero ∧
      decode 0xFFFFFFFFFFFFFFFF = .reserved .opcode := by decide
theorem test_decode_table_word :
    decodeTableWord 64 0x0100000000000000 = some (.sfx 0 0 0) ∧
      decodeTableWord 64 0x0200000000000000 = some (.music 0 0 0) ∧
      decodeTableWord 64 0x0300000000000000 = some (.fill false 0) ∧
      decodeTableWord 64 0x0400000000000000 = some (.stat 0) ∧ decodeTableWord 128 0 = none := by decide

/-! ## Record packing (R64, the table of 95 section 2) -/

theorem test_pack_notes :
    unpackNote 0x0E21 = { key := 33, volume := 7, waveform := 0, effect := 0 } ∧
      unpackNote 0x0A2D = { key := 45, volume := 5, waveform := 0, effect := 0 } ∧
      unpackNote 0xFFFF = { key := 63, volume := 7, waveform := 15, effect := 7 } ∧
      unpackNote 0x8000 = { key := 0, volume := 0, waveform := 8, effect := 0 } := by decide
theorem test_pack_header : unpackHdr 0x040201 = { speed := 1, loopStart := 2, loopEnd := 4 } := by decide
theorem test_pack_rows :
    packRow { slot0 := ⟨false, 10⟩, slot1 := ⟨true, 0⟩, slot2 := ⟨true, 0⟩, slot3 := ⟨true, 0⟩, startFlag := true,
              loopFlag := false, stopFlag := false } = 0x4040408A ∧
      packRow { slot0 := ⟨false, 11⟩, slot1 := ⟨false, 10⟩, slot2 := ⟨true, 0⟩, slot3 := ⟨true, 0⟩, startFlag := true,
                loopFlag := true, stopFlag := false } = 0x40408A8B := by decide
theorem test_unpack_stop_row :
    unpackRow 0x40C00B0A =
      { slot0 := ⟨false, 10⟩, slot1 := ⟨false, 11⟩, slot2 := ⟨true, 0⟩, slot3 := ⟨true, 0⟩, startFlag := false,
        loopFlag := false, stopFlag := true } := by decide

/-! ## Small states -/

/-- Thirty-two notes `v` of sound effect `i`. -/
def notesOf (i : Nat) (v : BitVec 16) : Sparse 16 := (List.range 32).map fun n => (32 * i + n, v)

/-- `W_ONE` of 95: the waveform 0 is 1 everywhere. -/
def wOne : List WavePiece := [{ id := 0, lo := 0, hi := 4294967296, base := 1, slope := 0 }]

/-- `W_SAW` of 95: `(p mod 2^32) / 2^31 - 1`. -/
def wSaw : List WavePiece := [{ id := 0, lo := 0, hi := 4294967296, base := -1, slope := 1 / 2147483648 }]

/-- Reset, with tables and a waveform. -/
def machine (hdrs : Sparse 24) (notes : Sparse 16) (songs : Sparse 32) (w : List WavePiece) : State :=
  { State.reset with env := { State.reset.env with tables := { hdrs := hdrs, notes := notes, songs := songs }, wave := w } }

/-- A channel that plays `x` from `off`. -/
def playing (x : Fin 64) (off : Rat) (loop mus : Bool) : Channel := triggered x off loop mus

/-- Reset, with the four channels playing these sound effects (none: idle). -/
def busy (a b c d : Option (Fin 64)) : State :=
  let ch (o : Option (Fin 64)) : Channel := { Channel.reset with sfxId := o }
  { State.reset with ch := { ch0 := ch a, ch1 := ch b, ch2 := ch c, ch3 := ch d } }

/-- What plays on the four channels. -/
def sounds (s : State) : List Int :=
  [indexValue s.ch.ch0.sfxId, indexValue s.ch.ch1.sfxId, indexValue s.ch.ch2.sfxId, indexValue s.ch.ch3.sfxId]

/-- The outcome is a next state with property `p`. -/
def nextIs (o : Host.Outcome State Fault Refusal) (p : State → Bool) : Bool :=
  match o with
  | .next t => p t
  | .fault _ => false
  | .refused _ => false

/-- The machine of 95 section 4: sound effect 5 at speed 1, its header and notes as given, channel 0 playing it. -/
def voice (hdr : BitVec 24) (note : BitVec 16) (off : Rat) (w : List WavePiece) : State :=
  (machine [(5, hdr)] (notesOf 5 note) [] w).setChan 0 (playing 5 off true false)

/-- The sound effects of 95 section 6 (headers), with song row 0 as given. -/
def song (row0 : BitVec 32) : State :=
  machine [(10, 0x000001), (11, 0x000002), (12, 0x000001), (14, 0x000001), (15, 0x000000)] [] [(0, row0)] wOne

/-! ## SFX -/

/-- A6: pass 2 takes the lowest `sfxId`, the first of equals. -/
theorem test_sfx_evicts :
    nextIs (exec (.sfx 20 (-1) 0) (busy (some 9) (some 3) (some 3) (some 5))) (fun t => sounds t = [9, 20, 3, 5]) = true := by
  decide +kernel
/-- A7: pass 1 takes an idle channel before the one that plays the sound, which is then idled. -/
theorem test_sfx_eliminates_duplicates :
    nextIs (exec (.sfx 6 (-1) 0) (busy (some 4) none (some 6) none)) (fun t => sounds t = [4, 6, -1, -1]) = true := by
  decide +kernel

/-! ## MUSIC -/

/-- M1 (R144): slots `[11, 10, 12, -]`; master 1, three channels triggered. -/
theorem test_music_start :
    nextIs (exec (.music 0 0 0) (song 0x400C0A0B)) (fun t => sounds t = [11, 10, 12, -1] ∧
      t.mus = { pattern := some 0, offset := 0, mask := 0xF, volume := 1, volumeStep := .fin 0, speed := 1,
                master := some 1, count := 0 }) = true := by decide +kernel
/-- R141: volume 1/2, `MUSIC -1, 200, 0` gives -5/2. -/
theorem test_music_fade_out :
    nextIs (exec (.music (-1) 200 0) { State.reset with mus := { Music.reset with volume := 1 / 2 } })
      (fun t => t.mus.volumeStep = .fin (-5 / 2)) = true := by decide +kernel

/-! ## FILL -/

/-- S1: one tick of a full-scale voice. -/
theorem test_fill_first_frame :
    nextIs (exec (.fill true 1) (voice 0x000001 0x0E21 0 wOne)) (fun t => t.out = [0x0FFF0FFF] ∧
      t.ch.ch0.offset = 1 / 183 ∧ t.ch.ch0.phase = 85704563) = true := by decide +kernel
/-- S12: truncation toward zero and the shift of a negative sample: frame 0xF492_F492. -/
theorem test_fill_negative_sample :
    nextIs (exec (.fill true 1) (voice 0x000001 0x0A21 0 wSaw)) (fun t => t.out = [0xF492F492]) = true := by
  decide +kernel

/-! ## The wrap, the end, the sequencer -/

/-- S8: loop [4, 8), start offset 10: one tick leaves 1099/183. -/
theorem test_loop_pulls_into_range :
    ((tick (voice 0x080401 0x0E21 10 wOne)).chan 0).offset = 1099 / 183 := by decide +kernel
/-- S9: loop [0, 40): at 32 the channel ends, and no snapshot is taken. -/
theorem test_end_takes_no_snapshot :
    let ch := (tick (voice 0x280001 0x0E21 (5855 / 183) wOne)).chan 0
    ch.sfxId = none ∧ ch.offset = 32 ∧ ch.prevKey = 24 := by decide +kernel

/-! ## STAT -/

/-- After M1: `STAT 14` answers 0x0070. -/
theorem test_stat_flags :
    nextIs (exec (.music 0 0 0) (song 0x400C0A0B)) (fun t => nextIs (exec (.stat 14) t) (fun u => u.resp = [0x0070])) = true := by
  decide +kernel
/-- From reset: `STAT 13` answers 0xFFFF. -/
theorem test_stat_speed_at_reset : nextIs (exec (.stat 13) State.reset) (fun t => t.resp = [0xFFFF]) = true := by
  decide +kernel

/-! ## The step -/

/-- The first request after reset is run. -/
theorem test_step_runs_the_word :
    nextIs (step (State.reset.withFetchWord 64 0x01000005FFFF0000)) (fun t => t.port = [] ∧ sounds t = [5, -1, -1, -1]) =
      true := by decide +kernel

/-! ## Witnesses: a concrete state and operands that meet the hypotheses of each statement -/

theorem witness_DecodeInvertsEncode :
    (Instr.sfx (-32768) 32767 31).wf = true ∧ (Instr.music (-1) 32767 (-32768)).wf = true ∧
      (Instr.fill true 4294967295).wf = true ∧ (Instr.stat 15).wf = true := by decide
theorem witness_EncodeInvertsDecode : decode 0x03010000FFFFFFFF = .request (.fill true 4294967295) := by decide
theorem witness_ReservedWordsAreAcceptedAndIgnored : ∃ r, decode 0x0400000900010000 = .reserved r :=
  ⟨.statBNotZero, by decide⟩
theorem witness_StepRunsTheDecodedRequest :
    decode 0x0100FFFE00030000 = .request (.sfx (-2) 3 0) ∧ decodeTableWord 64 0x0400000900000000 = some (.stat 9) := by
  decide
theorem witness_IdleCoreKeepsAllState : State.reset.port = [] := rfl
theorem witness_TablesHaveOneCanonicalForm :
    Memory.wf { hdrs := [(0, 1), (63, 2)], notes := [(0, 3), (2047, 4)], songs := [(63, 5)] } = true := by decide
theorem witness_EveryStepKeepsTheInvariant :
    (present 0x0301000000000001 (voice 0x000001 0x0E21 31 wOne)).Inv ∧
      nextIs (step (present 0x0301000000000001 (voice 0x000001 0x0E21 31 wOne))) (fun t => t.out = [0x0FFF0FFF]) = true := by
  decide +kernel
theorem witness_SfxOutOfRangeIsIgnored :
    ((-3 : Int) < -2 ∧ (63 : Int) < 64 ∧ (-2 : Int) < -1 ∧ (3 : Int) < 4 ∧ (31 : Int) < 32) := by decide
theorem witness_SfxStopIdlesOneChannel : (31 : Int) ≤ 31 := by decide
theorem witness_SfxStopLoopClearsOneFlag : (-32768 : Int) ≤ 31 := by decide

/-- Operands at both ends of their ranges; a state with an idle channel, and one with none. -/
theorem witness_SfxPlayChoosesClearsAndInitialises :
    ((-1 : Int) ≤ -1 ∧ (3 : Int) ≤ 3 ∧ (31 : Int) ≤ 31 ∧ (3 : Int) ≠ -1) ∧
      (((busy (some 4) none (some 6) none).chan 1).sfxId = none) ∧
      ∀ k, ((busy (some 9) (some 3) (some 3) (some 5)).chan k).sfxId ≠ none ∧
        ((busy (some 9) (some 3) (some 3) (some 5)).chan k).sfxId ≠ some 20 := by decide +kernel
theorem witness_SfxPlayLeavesExactlyOneChannel : (-1 : Int) ≤ 3 ∧ (3 : Int) ≤ 3 ∧ (-5 : Int) ≤ 31 := by decide
theorem witness_SfxEvictsTheLowestNumberedSound :
    ∀ c : Fin 4, ∃ x : Fin 64, x.val = c.val ∧
      ((busy (some 0) (some 1) (some 2) (some 3)).chan c).sfxId = some x := by decide +kernel
theorem witness_MusicOutOfRangeIsIgnored : (-2 : Int) < -1 ∧ (63 : Int) < 64 := by decide
/-- Row 0 has a master, row 1 none. -/
theorem witness_ActivateSelectsMasterAndTriggers :
    (activate 0 (song 0x400C0A0B)).mus.master = some 1 ∧ (activate 0 (song 0x40404040)).mus.master = none := by
  decide +kernel
theorem witness_ActivateOutsideTheTableStops : (-1 : Int) < 0 ∧ (63 : Int) < 64 := by decide

/-- Music playing pattern 0 of `row0` at speed 1 from `off`, master 0, with a fade. -/
def sounding (row0 : BitVec 32) (off volume : Rat) (step : QInf) : State :=
  { song row0 with mus := { pattern := some 0, offset := off, mask := 0xF, volume := volume, volumeStep := step,
                            speed := 1, master := some 0, count := 0 } }

theorem fadesOut_of_fin {m : Music} {q : Rat} (h : m.volumeStep = .fin q) : fadesOut m ↔ q < 0 ∧ m.volume ≤ 0 := by
  simp [fadesOut, h]

theorem witness_AdvanceInsideAPattern :
    ¬ fadesOut (advancedMusic (sounding 0x4040400A 31 1 (.fin (-1))).mus) ∧
      (advancedMusic (sounding 0x4040400A 31 1 (.fin (-1))).mus).offset < 32 := by
  rw [fadesOut_of_fin rfl]; decide +kernel
theorem witness_AdvanceCompletesAFadeOut :
    fadesOut (advancedMusic (sounding 0x4040400A 0 1 .negInf).mus) ∧
      fadesOut (advancedMusic (sounding 0x4040400A (5855 / 183) (1 / 22050) (.fin (-1))).mus) :=
  ⟨⟨.inl rfl, by decide +kernel⟩, (fadesOut_of_fin rfl).mpr (by decide +kernel)⟩
/-- The end of pattern 0 at once, with no fade-out ending. -/
abbrev EndsNow (row0 : BitVec 32) : Prop :=
  ¬ fadesOut (advancedMusic (sounding row0 (5855 / 183) 1 (.fin 0)).mus) ∧
    32 ≤ (advancedMusic (sounding row0 (5855 / 183) 1 (.fin 0)).mus).offset

/-- All hypotheses together, in one state each: with a stop flag, with a loop flag alone, with neither. -/
theorem witness_AdvanceEndsAPattern :
    (EndsNow 0x40C0400A ∧
      ((sounding 0x40C0400A (5855 / 183) 1 (.fin 0)).env.tables.songRow 0).stopFlag = true) ∧
    (EndsNow 0x4040C00A ∧
      ((sounding 0x4040C00A (5855 / 183) 1 (.fin 0)).env.tables.songRow 0).stopFlag = false ∧
      ((sounding 0x4040C00A (5855 / 183) 1 (.fin 0)).env.tables.songRow 0).loopFlag = true) ∧
    (EndsNow 0x4040400A ∧
      ((sounding 0x4040400A (5855 / 183) 1 (.fin 0)).env.tables.songRow 0).stopFlag = false ∧
      ((sounding 0x4040400A (5855 / 183) 1 (.fin 0)).env.tables.songRow 0).loopFlag = false) := by
  unfold EndsNow
  rw [fadesOut_of_fin rfl, fadesOut_of_fin rfl, fadesOut_of_fin rfl]
  decide +kernel
theorem witness_AdvanceIdlesOnlyAtFadeOut :
    ¬ fadesOut (advancedMusic (sounding 0x4040C00A (5855 / 183) 1 (.fin 0)).mus) := by
  rw [fadesOut_of_fin rfl]; decide +kernel
theorem witness_PatternLastsItsLength :
    (sounding 0x4040400A 0 1 (.fin 0)).mus.speed = ((1 : Nat) : Int) ∧ (sounding 0x4040400A 0 1 (.fin 0)).mus.offset = 0 ∧
      (sounding 0x4040400A 0 1 (.fin 0)).mus.volumeStep.isNeg = false ∧ 5855 < 5856 * 1 := by decide +kernel
theorem witness_FadesAreLinear : 0 < 1 ∧ (0 : Rat) ≤ 1 ∧ (1 : Rat) ≤ 1 := by decide +kernel
theorem witness_MasterChannelRunsTheSequencerFirst :
    ((sounding 0x4040400A 0 1 (.fin 0)).mus.pattern = some 0 ∧ (sounding 0x4040400A 0 1 (.fin 0)).mus.master = some 0) ∧
      State.reset.mus.pattern = none := by decide +kernel
theorem witness_IdleChannelIsSilent : (State.reset.chan 3).sfxId = none := rfl
theorem witness_PlayingChannelKeepsItsBooks : ((voice 0x000001 0x0E21 0 wOne).chan 0).sfxId = some 5 := rfl
/-- A silent note and an audible one. -/
theorem witness_PlayingChannelSoundsItsNote :
    ((voice 0x000001 0x0021 0 wOne).env.tables.sfxNote 5 ⌊((voice 0x000001 0x0021 0 wOne).chan 0).offset⌋).volume = 0 ∧
      ((voice 0x000001 0x0E21 0 wOne).env.tables.sfxNote 5 ⌊((voice 0x000001 0x0E21 0 wOne).chan 0).offset⌋).volume ≠ 0 := by
  decide +kernel
theorem witness_LoopingChannelNeverEnds :
    let s := voice 0x200201 0x0E21 31 wOne
    s.mus.pattern = none ∧ (s.chan 0).sfxId = some 5 ∧ (s.chan 0).canLoop = true ∧ 0 ≤ (s.chan 0).offset ∧
      (s.chan 0).offset < 32 ∧ (s.env.tables.sfxHdr 5).loopStart < (s.env.tables.sfxHdr 5).loopEnd ∧
      (s.env.tables.sfxHdr 5).loopEnd.val ≤ 32 ∧ ((s.env.tables.sfxHdr 5).loopStart.val : Rat) ≤ (s.chan 0).offset := by
  decide +kernel
theorem witness_PlaybackLastsItsLength :
    let s := voice 0x000001 0x0E21 31 wOne
    s.mus.pattern = none ∧ s.chan 0 = triggered 5 ((31 : Nat) : Rat) true false ∧
      (s.env.tables.sfxHdr 5).loopEnd ≤ (s.env.tables.sfxHdr 5).loopStart ∧
      1 = max 1 (s.env.tables.sfxHdr 5).speed.val ∧ 182 < (32 - 31) * 183 * 1 := by decide +kernel

/-- Tables that differ in one effect field only: note 0 of sound effect 5. -/
def effectTables (m : Memory) : Memory := m.write (.note 5 0 0x7E21)

theorem witness_NoteEffectsAreIgnored :
    let s := voice 0x000001 0x0E21 0 wOne
    (effectTables s.env.tables).sfxNote 5 0 ≠ s.env.tables.sfxNote 5 0 ∧
      (∀ i, (effectTables s.env.tables).sfxHdr i = s.env.tables.sfxHdr i) ∧
      (∀ p, (effectTables s.env.tables).songRow p = s.env.tables.songRow p) ∧
      ∀ (i : Fin 64) (n : Int),
        { (effectTables s.env.tables).sfxNote i n with effect := 0 } = { s.env.tables.sfxNote i n with effect := 0 } := by
  refine ⟨by decide +kernel, fun i => rfl, fun p => rfl, fun i n => ?_⟩
  simp only [effectTables, Memory.sfxNote, Memory.noteWord_write]
  split
  · rename_i h; obtain ⟨rfl, rfl⟩ := h; decide +kernel
  · rfl
/-- M15: pattern 0 ends and hands over from master 0 to master 2; and a stopped core. -/
theorem witness_TickRunsTheSequencerAgainForAHigherMaster :
    let s := hostWrite (.song 1 0x400C4040) (sounding 0x4040400A (5855 / 183) 1 (.fin 0))
    s.mus.pattern = some 0 ∧ s.mus.master = some 0 ∧ (advance 0 s).mus.pattern = some 1 ∧
      (advance 0 s).mus.master = some 2 ∧ State.reset.mus.master = none := by decide +kernel
theorem witness_SilentCoreFillsWithZeros : State.reset.Silent := by decide +kernel
theorem witness_StatAnswersTheView : (-1 : Int) < 0 ∧ (14 : Int) < 15 := by decide
theorem witness_StatValuesStayInRange : (voice 0x000001 0x0E21 (5855 / 183) wOne).Inv := by decide +kernel
theorem witness_PrevFieldsAreUnobservable :
    SameThrough Channel.forgetPrev State.reset
      (State.reset.setChan 2 { Channel.reset with prevKey := 63, prevVolume := 1 }) := by decide +kernel
theorem witness_PhaseCyclesAreUnobservable :
    SameThrough Channel.forgetCycles State.reset (State.reset.setChan 2 { Channel.reset with phase := 4294967296 }) := by
  decide +kernel
theorem witness_ResetChoicesAreInaudible :
    DifferInResetChoices State.reset
      { State.reset.setChan 1 { Channel.reset with offset := 7, canLoop := true, isMusic := true } with
        mus := { Music.reset with volume := 1, mask := 5, speed := 9, master := some 2 } } := by decide +kernel

end Sys2Proof.Tests
end

section
/-! SUPPORT. What each request does as one operation on the state, and what it leaves unchanged (20_memory.md R65):
the frames the statements about memory are assembled from. -/

namespace Sys2Proof.Machine

/-! ## Every request has one next state -/

@[simp] theorem exec_sfx (a b c : Int) (s : State) : exec (.sfx a b c) s = .next (sfxRequest a b c s) := rfl
@[simp] theorem exec_music (a b c : Int) (s : State) : exec (.music a b c) s = .next (musicRequest a b c s) := rfl
@[simp] theorem exec_fill_null (n : Nat) (s : State) : exec (.fill false n) s = .next s := rfl
@[simp] theorem exec_fill_buffer (n : Nat) (s : State) : exec (.fill true n) s = .next (ticks n s) := rfl
@[simp] theorem exec_stat (r : Int) (s : State) : exec (.stat r) s = .next (respond (statValue s r) s) := rfl

/-! ## MUSIC -/

/-- The three outcomes of `MUSIC` (R140). -/
theorem musicRequest_cases (a b c : Int) (s : State) :
    ((a < -1 ∨ 63 < a) ∧ musicRequest a b c s = s) ∨
      (a = -1 ∧ musicRequest a b c s = musicFadeOut b s) ∨
      (0 ≤ a ∧ a ≤ 63 ∧ musicRequest a b c s = musicStart a b c s) := by
  unfold musicRequest
  split
  · exact .inl ⟨‹_›, rfl⟩
  · split
    · exact .inr (.inl ⟨‹_›, rfl⟩)
    · exact .inr (.inr ⟨by omega, by omega, rfl⟩)

/-- A start activates on a state that differs from `s` in its music record alone (R142 to R144). -/
theorem musicStart_frame (a b c : Int) (s : State) : OnlyCoreChanges s (musicStart a b c s) :=
  activate_frame a _

theorem musicRequest_frame (a b c : Int) (s : State) : OnlyCoreChanges s (musicRequest a b c s) := by
  rcases musicRequest_cases a b c s with ⟨-, h⟩ | ⟨-, h⟩ | ⟨-, -, h⟩ <;> rw [h]
  · exact ⟨rfl, rfl, rfl, rfl⟩
  · exact ⟨rfl, rfl, rfl, rfl⟩
  · exact musicStart_frame a b c s

/-! ## R65 -/

/-- Settles O55: each request is an operation whose frame keeps the inputs and the port. -/
theorem noRequestWritesATable : Obligations.NoRequestWritesATable := by
  unfold Obligations.NoRequestWritesATable
  intro i s
  cases i with
  | sfx a b c =>
    obtain ⟨-, henv, hport, -, -⟩ := sfxRequest_frame a b c s
    exact ⟨_, exec_sfx a b c s, henv, hport⟩
  | music a b c =>
    obtain ⟨henv, hport, -, -⟩ := musicRequest_frame a b c s
    exact ⟨_, exec_music a b c s, henv, hport⟩
  | fill bv n =>
    cases bv with
    | false => exact ⟨s, exec_fill_null n s, rfl, rfl⟩
    | true =>
      obtain ⟨henv, hport, -, -⟩ := ticks_frame n s
      exact ⟨_, exec_fill_buffer n s, henv, hport⟩
  | stat r => exact ⟨_, exec_stat r s, respond_env s _, respond_port s _⟩

end Sys2Proof.Machine
end

section
/-! SUPPORT. The sequencer in the words of the statements: `ADVANCE` against the rules of R151 to R153 written out, and
the fade-out path of `MUSIC` (R141). -/

namespace Sys2Proof.Machine

/-! ## MUSIC -1 (R141) -/

theorem musicRequest_neg_one (b c : Int) (s : State) : musicRequest (-1) b c s = musicFadeOut b s := rfl

/-- Settles O23: `MUSIC -1` is the fade-out path, which writes `volumeStep` alone. -/
theorem musicFadeOutWritesVolumeStepOnly : Obligations.MusicFadeOutWritesVolumeStepOnly := by
  unfold Obligations.MusicFadeOutWritesVolumeStepOnly
  intro b c s
  rw [exec_music, musicRequest_neg_one]
  rfl

/-! ## Steps 1 and 2 of ADVANCE (R151, R152) -/

theorem fadeVolume_eq_advancedMusic_volume (m : Music) :
    fadeVolume m.volume m.volumeStep = (advancedMusic m).volume := by
  unfold advancedMusic
  cases m.volumeStep with
  | negInf => exact fadeVolume_negInf _
  | fin q => exact fadeVolume_fin _ q

theorem advancePosition_mus_eq_advancedMusic (s : State) : (advancePosition s).mus = advancedMusic s.mus := by
  rw [advancePosition_mus, fadeVolume_eq_advancedMusic_volume]
  rfl

theorem advancedMusic_volume_nonneg (m : Music) : 0 ≤ (advancedMusic m).volume := by
  rw [← fadeVolume_eq_advancedMusic_volume]
  exact fadeVolume_nonneg _ _

/-! ## Fade-out completion (R153) -/

theorem QInf.isNeg_iff (x : QInf) : x.isNeg = true ↔ x = .negInf ∨ ∃ q : Rat, q < 0 ∧ x = .fin q := by
  cases x with
  | negInf => simp [QInf.isNeg]
  | fin q => simp [QInf.isNeg]

theorem fadeOutDone_iff_fadesOut (m : Music) : fadeOutDone m = true ↔ fadesOut m := by
  unfold fadeOutDone fadesOut
  rw [Bool.and_eq_true, decide_eq_true_eq, QInf.isNeg_iff]

/-- Completion is tested first: the end of the pattern plays no part. -/
theorem advance_of_fadesOut {p : Fin 64} {s : State} (h : fadesOut (advancedMusic s.mus)) :
    advance p s = finishFadeOut (advancePosition s) := by
  rw [← advancePosition_mus_eq_advancedMusic, ← fadeOutDone_iff_fadesOut] at h
  exact if_pos h

theorem advancedMusic_volume_eq_zero_of_fadesOut {m : Music} (h : fadesOut (advancedMusic m)) :
    (advancedMusic m).volume = 0 :=
  le_antisymm h.2 (advancedMusic_volume_nonneg m)

/-- Settles O29: `ADVANCE` finishes the fade-out, which acts on the state steps 1 and 2 left, with its volume at 0. -/
theorem advanceCompletesAFadeOut : Obligations.AdvanceCompletesAFadeOut := by
  unfold Obligations.AdvanceCompletesAFadeOut
  intro p s h
  obtain ⟨hmus, hframe, hchan⟩ := finishFadeOut_spec (advancePosition s)
  rw [advance_of_fadesOut h]
  refine ⟨?_, hframe, hchan⟩
  rw [hmus, advancePosition_mus_eq_advancedMusic, ← advancedMusic_volume_eq_zero_of_fadesOut h]

end Sys2Proof.Machine
end

section
/-! SUPPORT. The first two steps of `SAMPLECH` (42_sample_synthesizer.md): the sequencer's gate (R171) and the idle
channel (R172). -/

namespace Sys2Proof.Machine

/-! ## The gate of the sequencer (R150, R171) -/

theorem sequencerHook_of_playing_master {c : Fin 4} {s : State} {p : Fin 64} (hp : s.mus.pattern = some p)
    (hm : s.mus.master = some c) : sequencerHook c s = advance p s := by
  unfold sequencerHook
  rw [hp]
  exact if_pos hm

theorem sequencerHook_of_not_master {c : Fin 4} {s : State} (hm : s.mus.master ≠ some c) : sequencerHook c s = s := by
  rcases sequencerHook_cases c s with ⟨p, -, hmaster, -⟩ | ⟨-, hkeep⟩
  · exact absurd hmaster hm
  · exact hkeep

/-- The synthesizer reads only what the sequencer left. -/
theorem sampleCh_eq_synth_sequencerHook (c : Fin 4) (s : State) : sampleCh c s = synth c (sequencerHook c s) := rfl

/-- Settles O34: the gate is open exactly for the master of playing music, and synthesis reads the state behind it. -/
theorem masterChannelRunsTheSequencerFirst : Obligations.MasterChannelRunsTheSequencerFirst := by
  unfold Obligations.MasterChannelRunsTheSequencerFirst
  intro c s
  rw [sampleCh_eq_synth_sequencerHook]
  constructor
  · intro p hp hm
    rw [sequencerHook_of_playing_master hp hm]
  · rintro (hstopped | hother)
    · rw [sequencerHook_stopped hstopped]
    · rw [sequencerHook_of_not_master hother]

/-! ## The idle channel (R172) -/

/-- Settles O35: with no sound effect on the channel, synthesis ends at step 2 and returns the state it was given. -/
theorem idleChannelIsSilent : Obligations.IdleChannelIsSilent := by
  unfold Obligations.IdleChannelIsSilent
  intro c s hidle
  exact synth_idle hidle

end Sys2Proof.Machine
end

section
/-! SUPPORT. `FILL` as the iterate of `TICK`, and its two empty forms (43_mixer_fill.md R193, R194). -/

namespace Sys2Proof.Machine

@[simp] theorem ticks_zero (s : State) : ticks 0 s = s := rfl

theorem ticks_eq_iterate_tick (n : Nat) (s : State) : ticks n s = tick^[n] s := by
  induction n generalizing s with
  | zero => rfl
  | succ n ih => rw [ticks_succ, Function.iterate_succ_apply, ih]

/-- Settles O48: with a buffer the fill is the iterate of `TICK`; the null buffer is ignored. -/
theorem fillRunsItsTicks : Obligations.FillRunsItsTicks := by
  unfold Obligations.FillRunsItsTicks
  intro bv n s
  cases bv with
  | false => exact exec_fill_null n s
  | true => rw [exec_fill_buffer, ticks_eq_iterate_tick, if_pos rfl]

/-- Settles O49: the null buffer is ignored whatever the count, and a count of zero runs no tick. -/
theorem fillNullOrZeroIsIgnored : Obligations.FillNullOrZeroIsIgnored := by
  unfold Obligations.FillNullOrZeroIsIgnored
  intro bv n s
  refine ⟨exec_fill_null n s, ?_⟩
  cases bv with
  | false => exact exec_fill_null 0 s
  | true => rw [exec_fill_buffer, ticks_zero]

end Sys2Proof.Machine
end

section
/-! SUPPORT. One equation of `step` per kind of port event (30_encoding.md R90, R95), and its totality
(60_exceptions.md R200). -/

namespace Sys2Proof.Machine

/-! ## What the step does with each port event -/

theorem step_of_port_nil {s : State} (hport : s.port = []) : step s = .next s := by
  simp only [step, accept, hport]

theorem step_of_port_table {s : State} {t : TableWrite} {rest : List PortEvent} (hport : s.port = .table t :: rest) :
    step s = .next (hostWrite t { s with port := rest }) := by
  simp only [step, accept, hport]

theorem step_of_port_request {s : State} {w : RequestWord} {rest : List PortEvent} {i : Instr}
    (hport : s.port = .request w :: rest) (hw : decode w = .request i) : step s = exec i { s with port := rest } := by
  simp only [step, accept, hport, hw]

theorem step_of_port_reserved {s : State} {w : RequestWord} {rest : List PortEvent} {why : Reserved}
    (hport : s.port = .request w :: rest) (hw : decode w = .reserved why) :
    step s = .next { s with port := rest } := by
  simp only [step, accept, hport, hw, acceptReserved_eq]

/-! ## The step is total (R200) -/

/-- The next state of each request, of which its frame (R65) says more than is needed here. -/
theorem exec_total (i : Instr) (s : State) : ∃ t, exec i s = .next t := by
  obtain ⟨t, hexec, -, -⟩ := noRequestWritesATable i s
  exact ⟨t, hexec⟩

theorem step_total (s : State) : ∃ t, step s = .next t := by
  cases hport : s.port with
  | nil => exact ⟨s, step_of_port_nil hport⟩
  | cons e rest =>
    cases e with
    | table t => exact ⟨_, step_of_port_table hport⟩
    | request w =>
      cases hw : decode w with
      | request i =>
        rw [step_of_port_request hport hw]
        exact exec_total i _
      | reserved why => exact ⟨_, step_of_port_reserved hport hw⟩

/-- Settles O7: each kind of port event ends in a next state, a decoded request because `exec` is total. -/
theorem everyStateHasANextState : Obligations.EveryStateHasANextState := by
  unfold Obligations.EveryStateHasANextState
  exact ⟨step_total, exec_total⟩

end Sys2Proof.Machine
end

section
/-! SUPPORT. The decoder row by row (30_encoding.md R94 to R96), and that it and the encoder invert each other (R97). -/

namespace Sys2Proof

/-! ## What the decoder answers, by the fields a row tests -/

section
variable {w : RequestWord}

theorem decode_of_sfx_fields (hop : opField w = 0x01) (hz : zField w = 0) :
    decode w = .request (.sfx (sext16 (aField w)) (sext16 (bField w)) (sext16 (cField w))) := by
  simp [decode, sfxRow_hits, hop, hz]

theorem decode_of_music_fields (hop : opField w = 0x02) (hz : zField w = 0) :
    decode w = .request (.music (sext16 (aField w)) (sext16 (bField w)) (sext16 (cField w))) := by
  simp [decode, sfxRow_hits, musicRow_hits, hop, hz]

theorem decode_of_fill_fields (hop : opField w = 0x03) (hz1 : z1Field w = 0) (hz2 : z2Field w = 0) :
    decode w = .request (.fill (bvField w) (nField w).toNat) := by
  simp [decode, sfxRow_hits, musicRow_hits, fillRow_hits, hop, hz1, hz2]

theorem decode_of_stat_fields (hop : opField w = 0x04) (hz : zField w = 0) (hb : bField w = 0) (hc : cField w = 0) :
    decode w = .request (.stat (sext16 (aField w))) := by
  simp [decode, sfxRow_hits, musicRow_hits, fillRow_hits, statRow_hits, hop, hz, hb, hc]

end

/-- The fields of a word that some row of the opcode map accepts (R94). -/
def MatchesARow (w : RequestWord) : Prop :=
  (opField w = 0x01 ∧ zField w = 0) ∨ (opField w = 0x02 ∧ zField w = 0) ∨
    (opField w = 0x03 ∧ z1Field w = 0 ∧ z2Field w = 0) ∨
    (opField w = 0x04 ∧ zField w = 0 ∧ bField w = 0 ∧ cField w = 0)

theorem decode_of_no_row {w : RequestWord} (h : ¬ MatchesARow w) : decode w = .reserved (reservedReason w) := by
  simp only [MatchesARow, not_or, ← sfxRow_hits, ← musicRow_hits, ← fillRow_hits, ← statRow_hits] at h
  obtain ⟨hsfx, hmusic, hfill, hstat⟩ := h
  rw [decode, if_neg hsfx, if_neg hmusic, if_neg hfill, if_neg hstat]

theorem decode_reserved_iff (w : RequestWord) : (∃ r, decode w = .reserved r) ↔ ¬ MatchesARow w := by
  constructor
  · rintro ⟨r, hr⟩ (⟨hop, hz⟩ | ⟨hop, hz⟩ | ⟨hop, hz1, hz2⟩ | ⟨hop, hz, hb, hc⟩)
    · simp [decode_of_sfx_fields hop hz] at hr
    · simp [decode_of_music_fields hop hz] at hr
    · simp [decode_of_fill_fields hop hz1 hz2] at hr
    · simp [decode_of_stat_fields hop hz hb hc] at hr
  · exact fun h => ⟨_, decode_of_no_row h⟩

theorem matchesARow_of_decode {w : RequestWord} {i : Instr} (h : decode w = .request i) : MatchesARow w := by
  by_contra hno
  rw [decode_of_no_row hno] at h
  cases h

/-- Settles O2: the fields of an encoded request are its operands, which 16 and 32 bits hold. -/
theorem decodeInvertsEncode : Obligations.DecodeInvertsEncode := by
  unfold Obligations.DecodeInvertsEncode
  intro i hwf
  cases i with
  | sfx a b c =>
    simp only [Instr.wf, Bool.and_eq_true] at hwf
    obtain ⟨⟨ha, hb⟩, hc⟩ := hwf
    rw [decode_of_sfx_fields] <;> simp [encode, sext16_u16, ha, hb, hc]
  | music a b c =>
    simp only [Instr.wf, Bool.and_eq_true] at hwf
    obtain ⟨⟨ha, hb⟩, hc⟩ := hwf
    rw [decode_of_music_fields] <;> simp [encode, sext16_u16, ha, hb, hc]
  | fill bv n =>
    simp only [Instr.wf, isUInt32, decide_eq_true_eq] at hwf
    rw [decode_of_fill_fields] <;> simp [encode, Nat.mod_eq_of_lt hwf]
  | stat r =>
    simp only [Instr.wf] at hwf
    rw [decode_of_stat_fields] <;> simp [encode, sext16_u16, hwf]

/-- Settles O3: the row the word matched fixes the fields that carry no operand, and the operands fix the others. -/
theorem encodeInvertsDecode : Obligations.EncodeInvertsDecode := by
  unfold Obligations.EncodeInvertsDecode
  intro w i hdec
  have hC := formatC_fields w
  have hF := formatF_fields w
  rcases matchesARow_of_decode hdec with ⟨hop, hz⟩ | ⟨hop, hz⟩ | ⟨hop, hz1, hz2⟩ | ⟨hop, hz, hb, hc⟩
  · obtain rfl : _ = i := by simpa [decode_of_sfx_fields hop hz] using hdec
    rw [hop, hz] at hC
    exact ⟨by simp [Instr.wf], by simpa [encode] using hC⟩
  · obtain rfl : _ = i := by simpa [decode_of_music_fields hop hz] using hdec
    rw [hop, hz] at hC
    exact ⟨by simp [Instr.wf], by simpa [encode] using hC⟩
  · obtain rfl : _ = i := by simpa [decode_of_fill_fields hop hz1 hz2] using hdec
    rw [hop, hz1, hz2] at hF
    exact ⟨by simpa [Instr.wf, isUInt32] using (nField w).isLt, by simpa [encode] using hF⟩
  · obtain rfl : _ = i := by simpa [decode_of_stat_fields hop hz hb hc] using hdec
    rw [hop, hz, hb, hc] at hC
    exact ⟨by simp [Instr.wf], by simpa [encode] using hC⟩

/-- Settles O1: each tabled word is evaluated by the decoder. -/
theorem workedEncodingsDecode : Obligations.WorkedEncodingsDecode := by
  unfold Obligations.WorkedEncodingsDecode
  refine ⟨?_, ?_, ?_, ?_, ?_, ?_, ?_, ?_, ?_, ?_, ?_, ⟨.opcode, ?_⟩, ⟨.zNotZero, ?_⟩⟩ <;> decide

/-- Settles O5: each expansion is the table's row by definition. -/
theorem pseudoRequestsExpand : Obligations.PseudoRequestsExpand := by
  unfold Obligations.PseudoRequestsExpand
  exact fun v n => ⟨rfl, rfl, rfl, rfl, rfl, rfl, rfl⟩

end Sys2Proof
end

section
/-! SUPPORT. The step on the words the decoder knows and on reserved ones (30_encoding.md R90, R95), and on an empty
port (60_exceptions.md R210). -/

namespace Sys2Proof.Machine

/-- The fields R95 lists are those that keep a word from matching any row. -/
theorem not_matchesARow_iff (w : RequestWord) :
    ¬ MatchesARow w ↔
      (opField w ≠ 0x01 ∧ opField w ≠ 0x02 ∧ opField w ≠ 0x03 ∧ opField w ≠ 0x04) ∨
      ((opField w = 0x01 ∨ opField w = 0x02 ∨ opField w = 0x04) ∧ zField w ≠ 0) ∨
      (opField w = 0x03 ∧ (z1Field w ≠ 0 ∨ z2Field w ≠ 0)) ∨
      (opField w = 0x04 ∧ (bField w ≠ 0 ∨ cField w ≠ 0)) := by
  unfold MatchesARow
  by_cases h1 : opField w = 0x01
  · simp [h1]
  · by_cases h2 : opField w = 0x02
    · simp [h2]
    · by_cases h3 : opField w = 0x03
      · simp [h3]; tauto
      · by_cases h4 : opField w = 0x04
        · simp [h4]; tauto
        · exact ⟨fun _ => .inl ⟨h1, h2, h3, h4⟩,
            fun _ => by simp only [h1, h2, h3, h4, false_and, or_self, not_false_iff]⟩

/-- Settles O4: a word is reserved when it matches no row, and the step on it keeps the state behind the port. -/
theorem reservedWordsAreAcceptedAndIgnored : Obligations.ReservedWordsAreAcceptedAndIgnored := by
  unfold Obligations.ReservedWordsAreAcceptedAndIgnored
  intro w
  refine ⟨(decode_reserved_iff w).trans (not_matchesARow_iff w), ?_⟩
  rintro s rest ⟨why, hw⟩
  exact step_of_port_reserved rfl hw

theorem decode_tableWord_of_decodeTableWord {nbits w : Nat} {i : Instr} (h : decodeTableWord nbits w = some i) :
    decode (tableWord nbits w) = .request i := by
  unfold decodeTableWord at h
  split at h
  · cases h
  · split at h
    · rename_i hw
      rw [hw, Option.some.inj h]
    · cases h

/-- Settles O6: both the given port and the one `withFetchWord` makes have the word in front. -/
theorem stepRunsTheDecodedRequest : Obligations.StepRunsTheDecodedRequest := by
  unfold Obligations.StepRunsTheDecodedRequest
  constructor
  · intro w i s rest hw
    exact step_of_port_request rfl hw
  · intro nbits w i s hw
    exact step_of_port_request rfl (decode_tableWord_of_decodeTableWord hw)

/-- Settles O8: nothing is pending, so nothing is accepted. -/
theorem idleCoreKeepsAllState : Obligations.IdleCoreKeepsAllState := by
  unfold Obligations.IdleCoreKeepsAllState
  exact fun _ hport => step_of_port_nil hport

end Sys2Proof.Machine
end

section
/-! SUPPORT. The machine invariant of Safety.lean, operation by operation (10_state.md R29, R33, R35, R38,
70_reset_and_hazards.md R228): every record an operation writes is good, so every step keeps the invariant. -/

namespace Sys2Proof.Machine

/-! ## Channel records -/

theorem triggered_ok (x : Fin 64) {off : Rat} (l m : Bool) (h0 : 0 ≤ off) (h32 : off < 32) :
    (triggered x off l m).Ok :=
  ⟨h0, by simp only [triggered]; linarith, fun _ => h32, 0, by simp [triggered]⟩

theorem Channel.Ok.idle {ch : Channel} (h : ch.Ok) : Channel.Ok { ch with sfxId := none } := by
  obtain ⟨h0, hend, -, hvol⟩ := h
  exact ⟨h0, hend, fun hne => absurd rfl hne, hvol⟩

theorem Channel.Ok.noLoop {ch : Channel} (h : ch.Ok) : Channel.Ok { ch with canLoop := false } := h

theorem idleMusic_apply (ch : Channel) :
    SeqMove.idleMusic.apply ch = if ch.isMusic = true then { ch with sfxId := none } else ch := rfl

theorem SeqMove.apply_ok (g : SeqMove) {ch : Channel} (h : ch.Ok) : (g.apply ch).Ok := by
  cases g with
  | keep => exact h
  | trigger x => exact triggered_ok x false true le_rfl (by norm_num)
  | idleMusic =>
    rw [idleMusic_apply]
    split
    · exact h.idle
    · exact h

/-- One evaluation moves at most one step past 32, and only by going idle; a snapshot is a note's normalised volume. -/
theorem playChannel_ok (e : Env) {x : Fin 64} {ch : Channel} (hx : ch.sfxId = some x) (h : ch.Ok) :
    (playChannel e x ch).1.Ok := by
  obtain ⟨h0, -, hplay, hvol⟩ := h
  have h32 : ch.offset < 32 := hplay (by simp [hx])
  obtain ⟨hn0, hn1⟩ := nextOffset_bounds (e.tables.sfxHdr x) ch h0
  refine ⟨?_, ?_, ?_, ?_⟩
  · rwa [playChannel_offset]
  · rw [playChannel_offset]; linarith
  · rw [playChannel_sfxId, playChannel_offset]
    split
    · exact fun hne => absurd rfl hne
    · exact fun _ => not_le.mp ‹_›
  · rw [playChannel_prevVolume]
    split
    · exact ⟨(currentNote e.tables x ch).volume, rfl⟩
    · exact hvol

/-! ## The music record -/

/-- A record with a fade volume in range, at offset 0, with no master or with a speed for its master. -/
theorem activate_mus_ok (p : Int) {s : State} (h0 : 0 ≤ s.mus.volume) (h1 : s.mus.volume ≤ 1) :
    (activate p s).mus.Ok := by
  rcases activate_cases p s with ⟨i, -, h⟩ | ⟨-, h⟩ <;> rw [h]
  · obtain ⟨hmaster, hspeed⟩ := masterSpeed_range s.env.tables (s.env.tables.songRow i)
      (pickMaster s.env.tables (s.env.tables.songRow i))
    rw [activateRow_mus]
    exact ⟨h0, h1, hmaster, hspeed, le_rfl, by norm_num, fun _ => by norm_num⟩
  · rw [deactivate_mus]
    exact ⟨h0, h1, by simp, .inl rfl, le_rfl, by norm_num, fun _ => by norm_num⟩

/-- The position passes 32 by less than a step, and then the pattern ends or the music stops. -/
theorem advance_mus_ok {p : Fin 64} {c : Fin 4} {s : State} (hp : s.mus.pattern = some p)
    (hm : s.mus.master = some c) (h : s.mus.Ok) : (advance p s).mus.Ok := by
  obtain ⟨-, -, hmaster, hspeed, hoff, -, hplay⟩ := h
  have hspeed1 : (1 : Rat) ≤ (s.mus.speed : Rat) := by
    have hne : s.mus.speed ≠ -1 := fun heq => by simp [hmaster.mpr heq] at hm
    exact_mod_cast (hspeed.resolve_left hne).1
  have h32 : s.mus.offset < 32 := hplay (by simp [hp])
  have hpos := positionStep_pos hspeed1
  have hle := positionStep_le hspeed1
  have hv0 := fadeVolume_nonneg s.mus.volume s.mus.volumeStep
  have hv1 := fadeVolume_le_one s.mus.volume s.mus.volumeStep
  have hnext0 : 0 ≤ s.mus.offset + positionStep (s.mus.speed : Rat) := by linarith
  have hnext1 : s.mus.offset + positionStep (s.mus.speed : Rat) < 32 + 1 / 183 := by linarith
  rcases advance_cases p s with ⟨-, hadv⟩ | ⟨-, -, hadv⟩ | ⟨-, hlt, hadv⟩ <;> rw [hadv]
  · rw [(finishFadeOut_spec _).1]
    exact ⟨hv0, hv1, hmaster, hspeed, hnext0, hnext1, fun hne => absurd rfl hne⟩
  · obtain ⟨q, n, hend⟩ := endPattern_cases p (advancePosition s)
    rw [hend]
    exact activate_mus_ok q hv0 hv1
  · rw [advancePosition_mus]
    exact ⟨hv0, hv1, hmaster, hspeed, hnext0, hnext1, fun _ => hlt⟩

/-! ## The operations -/

theorem State.Inv.of_onlyCoreChanges {s t : State} (h : s.Inv) (hf : OnlyCoreChanges s t)
    (hc : ∀ k, (t.chan k).Ok) (hm : t.mus.Ok) : t.Inv :=
  ⟨hc, hm, by rw [hf.1]; exact h.2.2⟩

theorem State.Inv.of_onlyChannelsChange {s t : State} (h : s.Inv) (hf : OnlyChannelsChange s t)
    (hc : ∀ k, (t.chan k).Ok) : t.Inv :=
  h.of_onlyCoreChanges hf.2 hc (by rw [hf.1]; exact h.2.1)

theorem State.Inv.setChan {s : State} (h : s.Inv) (c : Fin 4) {v : Channel} (hv : v.Ok) : (s.setChan c v).Inv := by
  refine h.of_onlyChannelsChange ⟨rfl, rfl, rfl, rfl, rfl⟩ fun k => ?_
  rw [State.setChan_chan]
  split
  · exact hv
  · exact h.1 k

/-- What `ADVANCE` does to the channels, as one move each (R148, R153). -/
theorem advance_moves (p : Fin 64) (s : State) :
    ∃ g : Fin 4 → SeqMove, ∀ k, (advance p s).chan k = (g k).apply (s.chan k) := by
  obtain ⟨_, g, h⟩ := advance_factors p s.mus s.env
  exact ⟨g, (h s rfl rfl).2.2⟩

theorem sequencerHook_inv (c : Fin 4) {s : State} (h : s.Inv) : (sequencerHook c s).Inv := by
  rcases sequencerHook_cases c s with ⟨p, hp, hm, heq⟩ | ⟨-, heq⟩ <;> rw [heq]
  · obtain ⟨g, hg⟩ := advance_moves p s
    refine h.of_onlyCoreChanges (advance_frame p s) (fun k => ?_) (advance_mus_ok hp hm h.2.1)
    rw [hg k]
    exact (g k).apply_ok (h.1 k)
  · exact h

theorem synth_inv (c : Fin 4) {s : State} (h : s.Inv) : (synth c s).1.Inv := by
  cases hx : (s.chan c).sfxId with
  | none => rwa [synth_idle hx]
  | some x =>
    rw [synth_playing hx]
    exact h.setChan c (playChannel_ok s.env hx (h.1 c))

theorem sampleCh_inv (c : Fin 4) {s : State} (h : s.Inv) : (sampleCh c s).1.Inv :=
  synth_inv c (sequencerHook_inv c h)

theorem tick_inv {s : State} (h : s.Inv) : (tick s).Inv :=
  mix_induct (P := State.Inv) (fun c _ => sampleCh_inv c) h

theorem ticks_inv (n : Nat) {s : State} (h : s.Inv) : (ticks n s).Inv :=
  ticks_induct (P := State.Inv) (fun _ => tick_inv) n h

theorem sfxPlay_inv (a : Fin 64) (b : Int) {c : Int} (hc : c ≤ 31) {s : State} (h : s.Inv) : (sfxPlay a b c s).Inv := by
  obtain ⟨hframe, hchan⟩ := sfxPlay_spec a b c s
  refine h.of_onlyChannelsChange hframe fun k => ?_
  rw [hchan k]
  split
  · have h0 : (0 : Rat) ≤ ((max 0 c : Int) : Rat) := by exact_mod_cast le_max_left 0 c
    have h31 : ((max 0 c : Int) : Rat) ≤ 31 := by exact_mod_cast max_le (by norm_num) hc
    exact triggered_ok a true false h0 (by linarith)
  · split
    · exact (h.1 k).idle
    · exact h.1 k

theorem sfxRequest_inv (a b c : Int) {s : State} (h : s.Inv) : (sfxRequest a b c s).Inv := by
  rcases sfxRequest_cases a b c s with heq | ⟨ch, heq⟩ | ⟨ch, heq⟩ | ⟨x, hc, heq⟩ <;> rw [heq]
  · exact h
  · exact h.setChan ch (h.1 ch).idle
  · exact h.setChan ch (h.1 ch).noLoop
  · exact sfxPlay_inv x b hc h

theorem startVolume_bounds (b : Int) : 0 ≤ startVolume b ∧ startVolume b ≤ 1 := by
  unfold startVolume; split <;> norm_num

theorem activate_inv (p : Int) {s : State} (h : s.Inv) : (activate p s).Inv := by
  have ⟨hchan, ⟨hv0, hv1, _⟩, _⟩ := h
  refine h.of_onlyCoreChanges (activate_frame p s) (fun k => ?_) (activate_mus_ok p hv0 hv1)
  rcases activate_chan_cases p s k with heq | ⟨x, heq⟩ <;> rw [heq]
  · exact hchan k
  · exact triggered_ok x false true le_rfl (by norm_num)

theorem musicRequest_inv (a b c : Int) {s : State} (h : s.Inv) : (musicRequest a b c s).Inv := by
  rcases musicRequest_cases a b c s with ⟨-, heq⟩ | ⟨-, heq⟩ | ⟨-, -, heq⟩ <;> rw [heq]
  · exact h
  · exact h
  · obtain ⟨hchan, ⟨-, -, hmus⟩, htables⟩ := h
    obtain ⟨hv0, hv1⟩ := startVolume_bounds b
    exact activate_inv a ⟨hchan, ⟨hv0, hv1, hmus⟩, htables⟩

theorem exec_inv {i : Instr} {s t : State} (h : s.Inv) (he : exec i s = .next t) : t.Inv := by
  cases i with
  | sfx a b c => cases he; exact sfxRequest_inv a b c h
  | music a b c => cases he; exact musicRequest_inv a b c h
  | fill bv n =>
    cases bv with
    | false => cases he; exact h
    | true => cases he; exact ticks_inv n h
  | stat r => cases he; exact h

/-- Settles O14: whichever port event the step takes, each operation it runs keeps the invariant. -/
theorem everyStepKeepsTheInvariant : Obligations.EveryStepKeepsTheInvariant := by
  unfold Obligations.EveryStepKeepsTheInvariant
  intro s t h hstep
  cases hport : s.port with
  | nil => rw [step_of_port_nil hport] at hstep; cases hstep; exact h
  | cons e rest =>
    cases e with
    | table w =>
      obtain ⟨hchan, hmus, htables⟩ := h
      rw [step_of_port_table hport] at hstep
      cases hstep
      exact ⟨hchan, hmus, Memory.wf_write _ w htables⟩
    | request w =>
      cases hw : decode w with
      | reserved why => rw [step_of_port_reserved hport hw] at hstep; cases hstep; exact h
      | request i =>
        rw [step_of_port_request hport hw] at hstep
        exact exec_inv (s := { s with port := rest }) h hstep

/-! ## Reset (R47) -/

theorem reset_chan (c : Fin 4) : State.reset.chan c = Channel.reset := by
  rcases Fin4.cases c with rfl | rfl | rfl | rfl <;> rfl

/-- Settles O12: the four channels hold the one reset record; the rest is `State.reset` read off. -/
theorem resetLeavesTheStatedValues : Obligations.ResetLeavesTheStatedValues := by
  unfold Obligations.ResetLeavesTheStatedValues
  exact ⟨reset_chan, rfl, rfl, rfl, rfl⟩

theorem Channel.reset_ok : Channel.reset.Ok :=
  ⟨le_rfl, by norm_num [Channel.reset], fun _ => by norm_num [Channel.reset], 0, by simp [Channel.reset]⟩

theorem Music.reset_ok : Music.reset.Ok :=
  ⟨le_rfl, zero_le_one, by simp [Music.reset], .inl rfl, le_rfl, by norm_num [Music.reset],
    fun _ => by norm_num [Music.reset]⟩

/-- Settles O13: both reset records are good, and tables nobody filled are in canonical form. -/
theorem resetMeetsTheInvariant : Obligations.ResetMeetsTheInvariant := by
  unfold Obligations.ResetMeetsTheInvariant
  exact ⟨fun c => by rw [reset_chan]; exact Channel.reset_ok, Music.reset_ok, Memory.wf_unfilled⟩

end Sys2Proof.Machine
end

section
/-! SUPPORT. The response port (30_encoding.md R100): what each request answers. -/

namespace Sys2Proof.Machine

/-- The responses a request gives in state `s`: one to `STAT`, none to the others (R100). -/
def responses (s : State) : Instr → List Response
  | .stat r => [statValue s r]
  | _ => []

theorem exec_resp (i : Instr) (s : State) : ∃ t, exec i s = .next t ∧ t.resp = s.resp ++ responses s i := by
  cases i with
  | sfx a b c =>
    obtain ⟨-, -, -, hresp, -⟩ := sfxRequest_frame a b c s
    exact ⟨_, exec_sfx a b c s, by simp [responses, hresp]⟩
  | music a b c =>
    obtain ⟨-, -, hresp, -⟩ := musicRequest_frame a b c s
    exact ⟨_, exec_music a b c s, by simp [responses, hresp]⟩
  | fill bv n =>
    cases bv with
    | false => exact ⟨s, exec_fill_null n s, by simp [responses]⟩
    | true =>
      obtain ⟨-, -, hresp, -⟩ := ticks_frame n s
      exact ⟨_, exec_fill_buffer n s, by simp [responses, hresp]⟩
  | stat r => exact ⟨_, exec_stat r s, respond_resp s _⟩

/-- Settles O56: what `exec` appends is the list `responses`, which is empty but for `STAT`. -/
theorem onlyStatResponds : Obligations.OnlyStatResponds := by
  unfold Obligations.OnlyStatResponds
  intro i s
  obtain ⟨t, hexec, hresp⟩ := exec_resp i s
  refine ⟨t, responses s i, hexec, hresp, ?_⟩
  cases i <;> rfl

end Sys2Proof.Machine
end

section
/-! SUPPORT. A simulation between two machines that run the same requests: a relation on channel records and one on
music records that every operation keeps, so that every step keeps it (10_state.md R23, R26, R48). -/

namespace Sys2Proof.Machine

/-- `R` relates channel records that the core treats alike: what it does to both keeps them related, and they sound
alike. -/
structure ChannelSim (R : Channel → Channel → Prop) : Prop where
  refl : ∀ a, R a a
  sfxId_eq : ∀ {a b}, R a b → a.sfxId = b.sfxId
  idle : ∀ {a b}, R a b → R { a with sfxId := none } { b with sfxId := none }
  idleMusic : ∀ {a b}, R a b → R (SeqMove.idleMusic.apply a) (SeqMove.idleMusic.apply b)
  noLoop : ∀ {a b}, R a b → R { a with canLoop := false } { b with canLoop := false }
  play : ∀ {a b x} (e : Env), R a b → a.sfxId = some x →
    R (playChannel e x a).1 (playChannel e x b).1 ∧ (playChannel e x a).2 = (playChannel e x b).2

/-- `E` relates music records that are the same while music plays. -/
structure MusicSim (E : Music → Music → Prop) : Prop where
  refl : ∀ m, E m m
  eq_or_stopped : ∀ {m n}, E m n → m = n ∨ (m.pattern = none ∧ n.pattern = none)
  fadeOut : ∀ {m n} (b : Int), E m n →
    E { m with volumeStep := fadeOutStep m.volume b } { n with volumeStep := fadeOutStep n.volume b }

/-- Related records, the same inputs, the same pending events, the same frames; the responses are not compared. -/
structure Related (R : Channel → Channel → Prop) (E : Music → Music → Prop) (s t : State) : Prop where
  chan : ∀ k, R (s.chan k) (t.chan k)
  mus : E s.mus t.mus
  env : s.env = t.env
  port : s.port = t.port
  out : s.out = t.out

section
variable {R : Channel → Channel → Prop} {E : Music → Music → Prop} {s t s' t' : State}

/-! ## Frames -/

theorem Related.of_onlyCoreChanges (h : Related R E s t) (hs : OnlyCoreChanges s s') (ht : OnlyCoreChanges t t')
    (hchan : ∀ k, R (s'.chan k) (t'.chan k)) (hmus : E s'.mus t'.mus) : Related R E s' t' := by
  obtain ⟨hse, hsp, -, hso⟩ := hs
  obtain ⟨hte, htp, -, hto⟩ := ht
  exact ⟨hchan, hmus, by rw [hse, hte, h.env], by rw [hsp, htp, h.port], by rw [hso, hto, h.out]⟩

theorem Related.of_onlyChannelsChange (h : Related R E s t) (hs : OnlyChannelsChange s s')
    (ht : OnlyChannelsChange t t') (hchan : ∀ k, R (s'.chan k) (t'.chan k)) : Related R E s' t' :=
  h.of_onlyCoreChanges hs.2 ht.2 hchan (by rw [hs.1, ht.1]; exact h.mus)

theorem Related.setChan (h : Related R E s t) (c : Fin 4) {v w : Channel} (hv : R v w) :
    Related R E (s.setChan c v) (t.setChan c w) := by
  refine h.of_onlyChannelsChange ⟨rfl, rfl, rfl, rfl, rfl⟩ ⟨rfl, rfl, rfl, rfl, rfl⟩ fun k => ?_
  rw [State.setChan_chan, State.setChan_chan]
  split
  · exact hv
  · exact h.chan k

variable (hR : ChannelSim R) (hE : MusicSim E)
include hR

theorem ChannelSim.apply (g : SeqMove) {a b : Channel} (h : R a b) : R (g.apply a) (g.apply b) := by
  cases g with
  | keep => exact h
  | trigger x => exact hR.refl _
  | idleMusic => exact hR.idleMusic h

/-! ## SAMPLECH and TICK -/

include hE

theorem Related.sequencerHook (c : Fin 4) (h : Related R E s t) :
    Related R E (sequencerHook c s) (sequencerHook c t) := by
  rcases hE.eq_or_stopped h.mus with hmus | ⟨hs, ht⟩
  · rcases sequencerHook_cases c s with ⟨p, hp, hm, heq⟩ | ⟨hno, heq⟩
    · obtain ⟨m', g, hadv⟩ := advance_factors p s.mus s.env
      obtain ⟨hms, hfs, hcs⟩ := hadv s rfl rfl
      obtain ⟨hmt, hft, hct⟩ := hadv t hmus.symm h.env.symm
      rw [heq, sequencerHook_of_playing_master (hmus ▸ hp) (hmus ▸ hm)]
      refine h.of_onlyCoreChanges hfs hft (fun k => ?_) (by rw [hms, hmt]; exact hE.refl m')
      rw [hcs, hct]
      exact hR.apply (g k) (h.chan k)
    · rcases sequencerHook_cases c t with ⟨p, hp, hm, -⟩ | ⟨-, heqt⟩
      · exact absurd ⟨by simp [hmus, hp], hmus ▸ hm⟩ hno
      · rwa [heq, heqt]
  · rwa [sequencerHook_stopped hs, sequencerHook_stopped ht]

omit hE in
theorem Related.synth (c : Fin 4) (h : Related R E s t) :
    Related R E (synth c s).1 (synth c t).1 ∧ (synth c s).2 = (synth c t).2 := by
  have hid := hR.sfxId_eq (h.chan c)
  cases hx : (s.chan c).sfxId with
  | none =>
    rw [synth_idle hx, synth_idle (hid ▸ hx)]
    exact ⟨h, rfl⟩
  | some x =>
    obtain ⟨hrec, hsample⟩ := hR.play s.env (h.chan c) hx
    rw [synth_playing hx, synth_playing (hid ▸ hx), ← h.env]
    exact ⟨h.setChan c hrec, hsample⟩

theorem Related.sampleCh (c : Fin 4) (h : Related R E s t) :
    Related R E (sampleCh c s).1 (sampleCh c t).1 ∧ (sampleCh c s).2 = (sampleCh c t).2 :=
  (h.sequencerHook hR hE c).synth hR c

theorem Related.mixFrom (cs : List (Fin 4)) (acc : Int) (h : Related R E s t) :
    Related R E (mixFrom cs s acc).1 (mixFrom cs t acc).1 ∧ (mixFrom cs s acc).2 = (mixFrom cs t acc).2 := by
  induction cs generalizing s t acc with
  | nil => exact ⟨h, rfl⟩
  | cons c cs ih =>
    obtain ⟨hrel, hsample⟩ := h.sampleCh hR hE c
    simp only [Sys2Proof.Machine.mixFrom, hsample]
    exact ih _ hrel

theorem Related.tick (h : Related R E s t) : Related R E (tick s) (tick t) := by
  obtain ⟨hrel, hsum⟩ := h.mixFrom hR hE Config.chOrder 0
  exact ⟨hrel.chan, hrel.mus, hrel.env, hrel.port, congrArg₂ (fun o a => o ++ [frameOf a]) hrel.out hsum⟩

theorem Related.ticks (n : Nat) (h : Related R E s t) : Related R E (ticks n s) (ticks n t) := by
  induction n generalizing s t with
  | zero => exact h
  | succ n ih => exact ih (h.tick hR hE)

/-! ## SFX -/

omit hE hR in
/-- The allocator reads nothing of a channel but its `sfxId` (R125, R126). -/
theorem selectChannel_congr (a : Fin 64) (b : Int) (h : ∀ k, (s.chan k).sfxId = (t.chan k).sfxId) :
    selectChannel a b s = selectChannel a b t := by
  have hfirst : (fun i => pass1Accepts a (s.chan i)) = fun i => pass1Accepts a (t.chan i) :=
    funext fun i => by simp only [pass1Accepts, h i]
  have hstep (i ch : Fin 4) : pass2Step s i ch = pass2Step t i ch := by rw [pass2Step, pass2Step, h i, h ch]
  have hpass2 : pass2 s = pass2 t := by simp only [pass2, hstep]
  unfold selectChannel
  rw [hfirst, hpass2]

omit hE in
theorem Related.sfxPlay (a : Fin 64) (b c : Int) (h : Related R E s t) :
    Related R E (sfxPlay a b c s) (sfxPlay a b c t) := by
  have hid : ∀ k, (s.chan k).sfxId = (t.chan k).sfxId := fun k => hR.sfxId_eq (h.chan k)
  obtain ⟨hfs, hcs⟩ := sfxPlay_spec a b c s
  obtain ⟨hft, hct⟩ := sfxPlay_spec a b c t
  refine h.of_onlyChannelsChange hfs hft fun k => ?_
  rw [hcs, hct, selectChannel_congr a b hid, hid k]
  split
  · exact hR.refl _
  · split
    · exact hR.idle (h.chan k)
    · exact h.chan k

omit hE in
theorem Related.sfxRequest (a b c : Int) (h : Related R E s t) :
    Related R E (sfxRequest a b c s) (sfxRequest a b c t) := by
  unfold Sys2Proof.Machine.sfxRequest
  split_ifs
  · exact h
  · unfold sfxStop
    cases asIndex 4 b with
    | none => exact h
    | some ch => exact h.setChan ch (hR.idle (h.chan ch))
  · unfold sfxStopLoop
    cases asIndex 4 b with
    | none => exact h
    | some ch => exact h.setChan ch (hR.noLoop (h.chan ch))
  · cases asIndex 64 a with
    | none => exact h
    | some x => exact h.sfxPlay hR x b c

/-! ## MUSIC -/

omit hR hE in
/-- A start writes all eight fields of the music record, so nothing of the old one remains (R142 to R147). -/
theorem musicStart_mus (i : Fin 64) (b c : Int) (s : State) :
    (musicStart i.val b c s).mus =
      { pattern := some i
        offset := 0
        mask := maskOf s.env.maskZeroTest c
        volume := startVolume b
        volumeStep := startVolumeStep b
        speed := masterSpeed s.env.tables (s.env.tables.songRow i) (pickMaster s.env.tables (s.env.tables.songRow i))
        master := pickMaster s.env.tables (s.env.tables.songRow i)
        count := 0 } := by
  rw [musicStart, activate_val, activateRow_mus]
  rfl

omit hR hE in
theorem musicStart_chan (i : Fin 64) (b c : Int) (s : State) (k : Fin 4) :
    (musicStart i.val b c s).chan k =
      if maskHas (maskOf s.env.maskZeroTest c) k ∧ ((s.env.tables.songRow i).slot k).disabled = false then
        triggered ((s.env.tables.songRow i).slot k).sfx 0 false true
      else s.chan k := by
  rw [musicStart, activate_val, activateRow_chan]
  rfl

theorem Related.musicStart (i : Fin 64) (b c : Int) (h : Related R E s t) :
    Related R E (musicStart i.val b c s) (musicStart i.val b c t) := by
  refine h.of_onlyCoreChanges (musicStart_frame i.val b c s) (musicStart_frame i.val b c t) (fun k => ?_) ?_
  · rw [musicStart_chan, musicStart_chan, h.env]
    split
    · exact hR.refl _
    · exact h.chan k
  · rw [musicStart_mus, musicStart_mus, h.env]
    exact hE.refl _

theorem Related.musicRequest (a b c : Int) (h : Related R E s t) :
    Related R E (musicRequest a b c s) (musicRequest a b c t) := by
  unfold Sys2Proof.Machine.musicRequest
  split_ifs
  · exact h
  · exact ⟨h.chan, hE.fadeOut b h.mus, h.env, h.port, h.out⟩
  · lift a to Nat using by omega
    exact h.musicStart hR hE ⟨a, by omega⟩ b c

/-! ## Requests -/

theorem Related.exec (i : Instr) (h : Related R E s t) :
    ∃ s' t', exec i s = .next s' ∧ exec i t = .next t' ∧ Related R E s' t' := by
  cases i with
  | sfx a b c => exact ⟨_, _, rfl, rfl, h.sfxRequest hR a b c⟩
  | music a b c => exact ⟨_, _, rfl, rfl, h.musicRequest hR hE a b c⟩
  | fill bv n =>
    cases bv with
    | false => exact ⟨_, _, rfl, rfl, h⟩
    | true => exact ⟨_, _, rfl, rfl, h.ticks hR hE n⟩
  | stat r => exact ⟨_, _, rfl, rfl, ⟨h.chan, h.mus, h.env, h.port, h.out⟩⟩

end

/-! ## From requests to steps -/

/-- What the step itself does keeps `Q`: taking an event off the port, and a host write. -/
structure PortSim (Q : State → State → Prop) : Prop where
  port_eq : ∀ {s t}, Q s t → s.port = t.port
  pop : ∀ {s t} (rest : List PortEvent), Q s t → Q { s with port := rest } { t with port := rest }
  write : ∀ {s t} (w : TableWrite), Q s t → Q (hostWrite w s) (hostWrite w t)

/-- A relation that every request keeps is kept by every step. -/
theorem PortSim.step {Q : State → State → Prop} (hQ : PortSim Q)
    (hexec : ∀ (i : Instr) {s t : State}, Q s t → ∃ s' t', exec i s = .next s' ∧ exec i t = .next t' ∧ Q s' t')
    {s t : State} (h : Q s t) : ∃ s' t', step s = .next s' ∧ step t = .next t' ∧ Q s' t' := by
  have hport := hQ.port_eq h
  cases hs : s.port with
  | nil => exact ⟨s, t, step_of_port_nil hs, step_of_port_nil (hport ▸ hs), h⟩
  | cons e rest =>
    have ht : t.port = e :: rest := hport ▸ hs
    cases e with
    | table w => exact ⟨_, _, step_of_port_table hs, step_of_port_table ht, hQ.write w (hQ.pop rest h)⟩
    | request w =>
      cases hw : decode w with
      | reserved why => exact ⟨_, _, step_of_port_reserved hs hw, step_of_port_reserved ht hw, hQ.pop rest h⟩
      | request i =>
        rw [step_of_port_request hs hw, step_of_port_request ht hw]
        exact hexec i (hQ.pop rest h)

theorem Related.portSim (R : Channel → Channel → Prop) (E : Music → Music → Prop) : PortSim (Related R E) where
  port_eq h := h.port
  pop _ h := ⟨h.chan, h.mus, h.env, rfl, h.out⟩
  write w h := ⟨h.chan, h.mus, by simp only [hostWrite, h.env], h.port, h.out⟩

theorem Related.step {R : Channel → Channel → Prop} {E : Music → Music → Prop} (hR : ChannelSim R) (hE : MusicSim E)
    {s t : State} (h : Related R E s t) : ∃ s' t', step s = .next s' ∧ step t = .next t' ∧ Related R E s' t' :=
  (Related.portSim R E).step (fun i _ _ hrel => hrel.exec hR hE i) h

end Sys2Proof.Machine
end

section
/-! SUPPORT. States seen through a function that forgets part of each channel record (10_state.md R23, R26): prevKey and
prevVolume, or whole cycles of phase. -/

namespace Sys2Proof.Machine

/-! ## States that agree through `f` -/

/-- Channel records that `f` makes equal. -/
abbrev AgreeThrough (f : Channel → Channel) (a b : Channel) : Prop := f a = f b

theorem State.mapChannels_chan (f : Channel → Channel) (s : State) (k : Fin 4) :
    (s.mapChannels f).chan k = f (s.chan k) := by
  rcases Fin4.cases k with rfl | rfl | rfl | rfl <;> rfl

theorem sameThrough_iff (f : Channel → Channel) (s t : State) :
    SameThrough f s t ↔ Related (AgreeThrough f) Eq s t ∧ s.resp = t.resp := by
  constructor
  · intro (h : s.mapChannels f = t.mapChannels f)
    have hchan (k : Fin 4) : f (s.chan k) = f (t.chan k) := by
      rw [← State.mapChannels_chan f s, ← State.mapChannels_chan f t, h]
    have hmus := congrArg State.mus h
    have henv := congrArg State.env h
    have hport := congrArg State.port h
    have hresp := congrArg State.resp h
    have hout := congrArg State.out h
    exact ⟨⟨hchan, hmus, henv, hport, hout⟩, hresp⟩
  · rintro ⟨h, hresp⟩
    refine State.ext_chan (fun k => ?_) h.mus h.env h.port hresp h.out
    rw [State.mapChannels_chan, State.mapChannels_chan]
    exact h.chan k

theorem MusicSim.eq : MusicSim Eq where
  refl _ := rfl
  eq_or_stopped h := .inl h
  fadeOut b h := by rw [h]

/-- `f` keeps the fields of a channel that the STAT view shows (R46). -/
structure KeepsView (f : Channel → Channel) : Prop where
  sfxId : ∀ {a b}, f a = f b → a.sfxId = b.sfxId
  offset : ∀ {a b}, f a = f b → a.offset = b.offset
  canLoop : ∀ {a b}, f a = f b → a.canLoop = b.canLoop
  isMusic : ∀ {a b}, f a = f b → a.isMusic = b.isMusic

theorem channelNote_congr {a b : Channel} (hid : a.sfxId = b.sfxId) (hoff : a.offset = b.offset) :
    channelNote a = channelNote b := by
  unfold channelNote
  rw [hid, hoff]

/-- The STAT view reads four fields of each channel, and the music record (R46). -/
theorem statReg_congr {s t : State} (hid : ∀ k, (s.chan k).sfxId = (t.chan k).sfxId)
    (hoff : ∀ k, (s.chan k).offset = (t.chan k).offset) (hloop : ∀ k, (s.chan k).canLoop = (t.chan k).canLoop)
    (hmusic : ∀ k, (s.chan k).isMusic = (t.chan k).isMusic) (hmus : s.mus = t.mus) (n : Nat) :
    statReg s n = statReg t n := by
  have hnote (k : Fin 4) : channelNote (s.chan k) = channelNote (t.chan k) := channelNote_congr (hid k) (hoff k)
  have hflags : chFlags s.ch = chFlags t.ch := by
    simp only [Fin.forall_fin_succ, State.chan] at hloop hmusic
    simp_all [chFlags]
  unfold statReg
  split
  · exact congrArg _ (hid 0)
  · exact congrArg _ (hid 1)
  · exact congrArg _ (hid 2)
  · exact congrArg _ (hid 3)
  · exact hnote 0
  · exact hnote 1
  · exact hnote 2
  · exact hnote 3
  · rw [hmus]
  · rw [hmus]
  · rw [hmus]
  · rw [hmus]
  · rw [hmus]
  · rw [hmus]
  · exact hflags
  · rfl

theorem SameThrough.exec {f : Channel → Channel} (hf : ChannelSim (AgreeThrough f)) (hview : KeepsView f) (i : Instr)
    {s t : State} (h : SameThrough f s t) :
    ∃ s' t', exec i s = .next s' ∧ exec i t = .next t' ∧ SameThrough f s' t' := by
  obtain ⟨hrel, hresp⟩ := (sameThrough_iff f s t).mp h
  obtain ⟨s', t', hs, ht, hrel'⟩ := hrel.exec hf MusicSim.eq i
  obtain ⟨s'', hs'', hrs⟩ := exec_resp i s
  obtain ⟨t'', ht'', hrt⟩ := exec_resp i t
  obtain rfl : s'' = s' := by simpa [hs] using hs''.symm
  obtain rfl : t'' = t' := by simpa [ht] using ht''.symm
  have hanswer : responses s i = responses t i := by
    cases i with
    | stat r =>
      have hreg := statReg_congr (fun k => hview.sfxId (hrel.chan k)) (fun k => hview.offset (hrel.chan k))
        (fun k => hview.canLoop (hrel.chan k)) (fun k => hview.isMusic (hrel.chan k)) hrel.mus r.toNat
      simp only [responses, statValue, hreg]
    | _ => rfl
  exact ⟨_, _, hs, ht, (sameThrough_iff f _ _).mpr ⟨hrel', by rw [hrs, hrt, hresp, hanswer]⟩⟩

theorem SameThrough.portSim (f : Channel → Channel) : PortSim (SameThrough f) where
  port_eq h := ((sameThrough_iff f _ _).mp h).1.port
  pop rest h :=
    have ⟨hrel, hresp⟩ := (sameThrough_iff f _ _).mp h
    (sameThrough_iff f _ _).mpr ⟨(Related.portSim _ Eq).pop rest hrel, hresp⟩
  write w h :=
    have ⟨hrel, hresp⟩ := (sameThrough_iff f _ _).mp h
    (sameThrough_iff f _ _).mpr ⟨(Related.portSim _ Eq).write w hrel, hresp⟩

/-! ## What a channel's synthesis reads -/

theorem nextOffset_congr (h : SfxHeader) {a b : Channel} (hoff : a.offset = b.offset) (hloop : a.canLoop = b.canLoop) :
    nextOffset h a = nextOffset h b := by
  rw [nextOffset, nextOffset, hoff, hloop]

theorem currentNote_congr (m : Memory) (x : Fin 64) {a b : Channel} (hoff : a.offset = b.offset) :
    currentNote m x a = currentNote m x b := by
  rw [currentNote, currentNote, hoff]

/-- Idling the music channels treats two records alike when they agree on being music channels. -/
theorem idleMusic_apply_congr {R : Channel → Channel → Prop} {a b : Channel} (hmusic : a.isMusic = b.isMusic)
    (hkeep : R a b) (hidle : R { a with sfxId := none } { b with sfxId := none }) :
    R (SeqMove.idleMusic.apply a) (SeqMove.idleMusic.apply b) := by
  rw [idleMusic_apply, idleMusic_apply]
  by_cases hb : b.isMusic = true
  · rwa [if_pos hb, if_pos (hmusic.trans hb)]
  · rwa [if_neg hb, if_neg (hmusic ▸ hb)]

/-! ## prevKey and prevVolume (R26) -/

theorem forgetPrev_eq_iff (a b : Channel) :
    a.forgetPrev = b.forgetPrev ↔
      a.sfxId = b.sfxId ∧ a.offset = b.offset ∧ a.phase = b.phase ∧ a.canLoop = b.canLoop ∧ a.isMusic = b.isMusic := by
  simp [Channel.forgetPrev]

theorem forgetPrev_keepsView : KeepsView Channel.forgetPrev where
  sfxId h := have heq := congrArg Channel.sfxId h; heq
  offset h := have heq := congrArg Channel.offset h; heq
  canLoop h := have heq := congrArg Channel.canLoop h; heq
  isMusic h := have heq := congrArg Channel.isMusic h; heq

theorem forgetPrev_idle {a b : Channel} (h : a.forgetPrev = b.forgetPrev) :
    Channel.forgetPrev { a with sfxId := none } = Channel.forgetPrev { b with sfxId := none } := by
  rw [forgetPrev_eq_iff] at h ⊢
  exact ⟨rfl, h.2⟩

theorem forgetPrev_channelSim : ChannelSim (AgreeThrough Channel.forgetPrev) where
  refl _ := rfl
  sfxId_eq h := forgetPrev_keepsView.sfxId h
  idle h := forgetPrev_idle h
  idleMusic h := idleMusic_apply_congr (forgetPrev_keepsView.isMusic h) h (forgetPrev_idle h)
  noLoop h := by
    rw [AgreeThrough, forgetPrev_eq_iff] at h ⊢
    obtain ⟨hid, hoff, hphase, -, hmusic⟩ := h
    exact ⟨hid, hoff, hphase, rfl, hmusic⟩
  play {a b x} e h _ := by
    rw [AgreeThrough, forgetPrev_eq_iff] at h ⊢
    obtain ⟨hid, hoff, hphase, hloop, hmusic⟩ := h
    have hnext := nextOffset_congr (e.tables.sfxHdr x) hoff hloop
    have hnote := currentNote_congr e.tables x hoff
    simp only [playChannel_sfxId, playChannel_offset, playChannel_phase, playChannel_canLoop, playChannel_isMusic,
      playChannel_sample, hnext, hnote, hid, hphase, hloop, hmusic, and_self]

/-- Settles O57: the view without these two fields is one the core keeps, request by request. -/
theorem prevFieldsAreUnobservable : Obligations.PrevFieldsAreUnobservable := by
  unfold Obligations.PrevFieldsAreUnobservable
  intro s t h
  exact (SameThrough.portSim _).step (fun i _ _ => SameThrough.exec forgetPrev_channelSim forgetPrev_keepsView i) h

/-! ## Whole cycles of phase (R23) -/

theorem forgetCycles_eq_iff (a b : Channel) :
    a.forgetCycles = b.forgetCycles ↔
      a.sfxId = b.sfxId ∧ a.offset = b.offset ∧ a.phase % 4294967296 = b.phase % 4294967296 ∧ a.canLoop = b.canLoop ∧
        a.isMusic = b.isMusic ∧ a.prevKey = b.prevKey ∧ a.prevVolume = b.prevVolume := by
  simp [Channel.forgetCycles]

theorem forgetCycles_keepsView : KeepsView Channel.forgetCycles where
  sfxId h := have heq := congrArg Channel.sfxId h; heq
  offset h := have heq := congrArg Channel.offset h; heq
  canLoop h := have heq := congrArg Channel.canLoop h; heq
  isMusic h := have heq := congrArg Channel.isMusic h; heq

theorem waveAt_congr (e : Env) (id : BitVec 4) {p q : Nat} (h : p % 4294967296 = q % 4294967296) :
    waveAt e id p = waveAt e id q := by
  rw [← waveAt_mod e id p, h, waveAt_mod]

theorem forgetCycles_idle {a b : Channel} (h : a.forgetCycles = b.forgetCycles) :
    Channel.forgetCycles { a with sfxId := none } = Channel.forgetCycles { b with sfxId := none } := by
  rw [forgetCycles_eq_iff] at h ⊢
  exact ⟨rfl, h.2⟩

theorem forgetCycles_channelSim : ChannelSim (AgreeThrough Channel.forgetCycles) where
  refl _ := rfl
  sfxId_eq h := forgetCycles_keepsView.sfxId h
  idle h := forgetCycles_idle h
  idleMusic h := idleMusic_apply_congr (forgetCycles_keepsView.isMusic h) h (forgetCycles_idle h)
  noLoop h := by
    rw [AgreeThrough, forgetCycles_eq_iff] at h ⊢
    obtain ⟨hid, hoff, hphase, -, hrest⟩ := h
    exact ⟨hid, hoff, hphase, rfl, hrest⟩
  play {a b x} e h _ := by
    rw [AgreeThrough, forgetCycles_eq_iff] at h ⊢
    obtain ⟨hid, hoff, hphase, hloop, hmusic, hkey, hvol⟩ := h
    have hnext := nextOffset_congr (e.tables.sfxHdr x) hoff hloop
    have hnote := currentNote_congr e.tables x hoff
    have hwave := waveAt_congr e (currentNote e.tables x b).waveform hphase
    have hinc (d : Nat) : (a.phase + d) % 4294967296 = (b.phase + d) % 4294967296 := Nat.ModEq.add_right d hphase
    simp only [playChannel_sfxId, playChannel_offset, playChannel_phase, playChannel_canLoop, playChannel_isMusic,
      playChannel_prevKey, playChannel_prevVolume, playChannel_sample, hnext, hnote, hid, hoff, hloop, hmusic, hkey,
      hvol, hwave, true_and, and_true]
    split
    · exact hphase
    · exact hinc _

/-- Settles O58: the view modulo whole cycles is one the core keeps, because Wave has the period of one cycle. -/
theorem phaseCyclesAreUnobservable : Obligations.PhaseCyclesAreUnobservable := by
  unfold Obligations.PhaseCyclesAreUnobservable
  intro s t h
  exact (SameThrough.portSim _).step (fun i _ _ => SameThrough.exec forgetCycles_channelSim forgetCycles_keepsView i) h

end Sys2Proof.Machine
end

section
/-! SUPPORT. The reset values D23 chooses (10_state.md R48): a channel matters only while it plays, the music record
only while music plays. -/

namespace Sys2Proof.Machine

/-- The same record, or two idle ones. -/
def SameUnlessIdle (a b : Channel) : Prop := a = b ∨ (a.sfxId = none ∧ b.sfxId = none)

/-- The same record, or two stopped ones. -/
def SameUnlessStopped (m n : Music) : Prop := m = n ∨ (m.pattern = none ∧ n.pattern = none)

theorem idleMusic_apply_idle {a : Channel} (h : a.sfxId = none) : (SeqMove.idleMusic.apply a).sfxId = none := by
  rw [idleMusic_apply]
  split
  · rfl
  · exact h

theorem sameUnlessIdle_channelSim : ChannelSim SameUnlessIdle where
  refl _ := .inl rfl
  sfxId_eq := by
    rintro a b (rfl | ⟨ha, hb⟩)
    · rfl
    · rw [ha, hb]
  idle _ := .inr ⟨rfl, rfl⟩
  idleMusic := by
    rintro a b (rfl | ⟨ha, hb⟩)
    · exact .inl rfl
    · exact .inr ⟨idleMusic_apply_idle ha, idleMusic_apply_idle hb⟩
  noLoop := by
    rintro a b (rfl | hidle)
    · exact .inl rfl
    · exact .inr hidle
  play := by
    rintro a b x e (rfl | ⟨ha, -⟩) hx
    · exact ⟨.inl rfl, rfl⟩
    · simp [ha] at hx

theorem sameUnlessStopped_musicSim : MusicSim SameUnlessStopped where
  refl _ := .inl rfl
  eq_or_stopped h := h
  fadeOut := by
    rintro m n b (rfl | hstopped)
    · exact .inl rfl
    · exact .inr hstopped

theorem related_of_differInResetChoices {s t : State} (h : DifferInResetChoices s t) :
    Related SameUnlessIdle SameUnlessStopped s t := by
  obtain ⟨⟨hsc, hsm⟩, ⟨htc, htm⟩, henv, hport, hout⟩ := h
  exact ⟨fun k => .inr ⟨hsc k, htc k⟩, .inr ⟨hsm, htm⟩, henv, hport, hout⟩

theorem run_succ_of_step {M : Host.Core} {s s' : M.State} (n : Nat) (h : M.step s = .next s') :
    M.run (n + 1) s = M.run n s' := by
  rw [Host.Core.run, h]

theorem Related.run {R : Channel → Channel → Prop} {E : Music → Music → Prop} (hR : ChannelSim R) (hE : MusicSim E)
    (n : Nat) {s t : State} (h : Related R E s t) :
    ∃ s' t', core.run n s = .next s' ∧ core.run n t = .next t' ∧ Related R E s' t' := by
  induction n generalizing s t with
  | zero => exact ⟨s, t, rfl, rfl, h⟩
  | succ n ih =>
    obtain ⟨s₁, t₁, hs, ht, h₁⟩ := h.step hR hE
    obtain ⟨s', t', hs', ht', hrel⟩ := ih h₁
    exact ⟨s', t', (run_succ_of_step n hs).trans hs', (run_succ_of_step n ht).trans ht', hrel⟩

/-- Settles O59: the chosen values sit in idle channels and a stopped music record, which no frame depends on. -/
theorem resetChoicesAreInaudible : Obligations.ResetChoicesAreInaudible := by
  unfold Obligations.ResetChoicesAreInaudible
  intro n s t h
  obtain ⟨s', t', hs, ht, hrel⟩ :=
    (related_of_differInResetChoices h).run sameUnlessIdle_channelSim sameUnlessStopped_musicSim n
  exact ⟨s', t', hs, ht, hrel.out⟩

end Sys2Proof.Machine
end

section
/-! SUPPORT. The record packing (20_memory.md R64) field by field, and the host's table writes (R76, R224). -/

namespace Sys2Proof.Machine

/-! ## Parts of a concatenation -/

section
variable {u v w x : Nat} (a : BitVec u) (b : BitVec v) (c : BitVec w) (d : BitVec x)

theorem extractLsb'_append_second : (a ++ b ++ c).extractLsb' w v = b := by
  rw [BitVec.extractLsb'_append_eq_of_le le_rfl, Nat.sub_self, BitVec.extractLsb'_append_eq_right]

theorem extractLsb'_append_third : (a ++ b ++ c ++ d).extractLsb' (x + w) v = b := by
  rw [BitVec.extractLsb'_append_eq_of_le (Nat.le_add_right x w), Nat.add_sub_cancel_left, extractLsb'_append_second]

end

/-- A part of a word and the part right below it are one part. -/
theorem extractLsb'_append_below {m n : Nat} (i k : Nat) (w : BitVec m) :
    w.extractLsb' (i + k) n ++ w.extractLsb' i k = w.extractLsb' i (n + k) :=
  BitVec.extractLsb'_append_extractLsb'_eq_extractLsb' rfl

/-! ## Headers -/

theorem unpackHdr_packHdr (h : SfxHeader) : unpackHdr (packHdr h) = h := by
  have hspeed : (packHdr h).extractLsb' 0 8 = BitVec.ofFin h.speed := BitVec.extractLsb'_append_eq_right
  have hstart : (packHdr h).extractLsb' 8 8 = BitVec.ofFin h.loopStart := extractLsb'_append_second _ _ _
  have hend : (packHdr h).extractLsb' 16 8 = BitVec.ofFin h.loopEnd :=
    (BitVec.extractLsb'_append_eq_of_le (by decide)).trans BitVec.extractLsb'_append_eq_left
  rw [unpackHdr, hspeed, hstart, hend]

theorem packHdr_unpackHdr (w : BitVec 24) : packHdr (unpackHdr w) = w := by
  change (w.extractLsb' 16 8 ++ w.extractLsb' 8 8 ++ w.extractLsb' 0 8 : BitVec (8 + 8 + 8)) = w
  rw [extractLsb'_append_below (n := 8) 8 8 w, extractLsb'_append_below (n := 8 + 8) 0 8 w]
  exact BitVec.extractLsb'_eq_self

/-! ## Notes -/

theorem unpackNote_packNote (n : Note) : unpackNote (packNote n) = n := by
  have hkey : (packNote n).extractLsb' 0 6 = BitVec.ofFin n.key := BitVec.extractLsb'_append_eq_right
  have hwlow : (packNote n).extractLsb' 6 3 = n.waveform.extractLsb' 0 3 := extractLsb'_append_second _ _ _
  have hvol : (packNote n).extractLsb' 9 3 = BitVec.ofFin n.volume := extractLsb'_append_third _ _ _ _
  have heff : (packNote n).extractLsb' 12 3 = BitVec.ofFin n.effect :=
    (BitVec.extractLsb'_append_eq_of_le (by decide)).trans (extractLsb'_append_third _ _ _ _)
  have hwhigh : (packNote n).extractLsb' 15 1 = n.waveform.extractLsb' 3 1 :=
    (BitVec.extractLsb'_append_eq_of_le (by decide)).trans
      ((BitVec.extractLsb'_append_eq_of_le (by decide)).trans
        ((BitVec.extractLsb'_append_eq_of_le (by decide)).trans BitVec.extractLsb'_append_eq_left))
  have hwave : (n.waveform.extractLsb' 3 1 ++ n.waveform.extractLsb' 0 3 : BitVec (1 + 3)) = n.waveform :=
    (BitVec.extractLsb'_append_extractLsb'_eq_extractLsb' rfl).trans BitVec.extractLsb'_eq_self
  rw [unpackNote, hkey, hwlow, hvol, heff, hwhigh, hwave]

theorem packNote_unpackNote (w : BitVec 16) : packNote (unpackNote w) = w := by
  have hhigh : (w.extractLsb' 15 1 ++ w.extractLsb' 6 3 : BitVec (1 + 3)).extractLsb' 3 1 = w.extractLsb' 15 1 :=
    BitVec.extractLsb'_append_eq_left
  have hlow : (w.extractLsb' 15 1 ++ w.extractLsb' 6 3 : BitVec (1 + 3)).extractLsb' 0 3 = w.extractLsb' 6 3 :=
    BitVec.extractLsb'_append_eq_right
  change ((w.extractLsb' 15 1 ++ w.extractLsb' 6 3 : BitVec (1 + 3)).extractLsb' 3 1 ++ w.extractLsb' 12 3 ++
    w.extractLsb' 9 3 ++ (w.extractLsb' 15 1 ++ w.extractLsb' 6 3 : BitVec (1 + 3)).extractLsb' 0 3 ++
      w.extractLsb' 0 6 : BitVec (1 + 3 + 3 + 3 + 6)) = w
  rw [hhigh, hlow, extractLsb'_append_below 12 3 w, extractLsb'_append_below 9 3 w, extractLsb'_append_below 6 3 w,
    extractLsb'_append_below 0 6 w]
  exact BitVec.extractLsb'_eq_self

/-! ## Song rows -/

/-- The slot in one byte of a song row (R64). -/
def slotOfByte (b : BitVec 8) : Slot := { disabled := b.getLsbD 6, sfx := (b.extractLsb' 0 6).toFin }

theorem unpackSlot_eq_slotOfByte (w : BitVec 32) (k : Nat) : unpackSlot w k = slotOfByte (w.extractLsb' (8 * k) 8) := by
  have hsfx : (w.extractLsb' (8 * k) 8).extractLsb' 0 6 = w.extractLsb' (8 * k) 6 := by
    apply BitVec.eq_of_getLsbD_eq
    intro i hi
    simp [show i < 8 by omega]
  simp [unpackSlot, slotOfByte, hsfx]

theorem slotOfByte_packSlot (flag : Bool) (s : Slot) : slotOfByte (packSlot flag s) = s := by
  have hsfx : (packSlot flag s).extractLsb' 0 6 = BitVec.ofFin s.sfx := BitVec.extractLsb'_append_eq_right
  have hdis : (packSlot flag s).getLsbD 6 = s.disabled := by
    simp only [packSlot, BitVec.getLsbD_append, BitVec.getLsbD_ofBool]
    simp
  rw [slotOfByte, hsfx, hdis]

theorem packSlot_flag (flag : Bool) (s : Slot) : (packSlot flag s).getLsbD 7 = flag := by
  simp only [packSlot, BitVec.getLsbD_append, BitVec.getLsbD_ofBool]
  simp

theorem unpackRow_packRow (r : SongRow) : unpackRow (packRow r) = r := by
  have h0 : (packRow r).extractLsb' 0 8 = packSlot r.startFlag r.slot0 := BitVec.extractLsb'_append_eq_right
  have h1 : (packRow r).extractLsb' 8 8 = packSlot r.loopFlag r.slot1 := extractLsb'_append_second _ _ _
  have h2 : (packRow r).extractLsb' 16 8 = packSlot r.stopFlag r.slot2 := extractLsb'_append_third _ _ _ _
  have h3 : (packRow r).extractLsb' 24 8 = packSlot false r.slot3 :=
    (BitVec.extractLsb'_append_eq_of_le (by decide)).trans
      ((BitVec.extractLsb'_append_eq_of_le (by decide)).trans BitVec.extractLsb'_append_eq_left)
  have hflag (i : Nat) : (packRow r).getLsbD (i + 7) = ((packRow r).extractLsb' i 8).getLsbD 7 := by simp
  have hstart : (packRow r).getLsbD 7 = r.startFlag := by rw [hflag 0, h0, packSlot_flag]
  have hloop : (packRow r).getLsbD 15 = r.loopFlag := by rw [hflag 8, h1, packSlot_flag]
  have hstop : (packRow r).getLsbD 23 = r.stopFlag := by rw [hflag 16, h2, packSlot_flag]
  simp only [unpackRow, unpackSlot_eq_slotOfByte, Nat.mul_zero, Nat.mul_one, Nat.reduceMul, h0, h1, h2, h3,
    slotOfByte_packSlot, hstart, hloop, hstop]

/-- Settles O10: each field of a packed record is the field it was packed from, and each word is its fields. -/
theorem tablePackingLosesNothing : Obligations.TablePackingLosesNothing := by
  unfold Obligations.TablePackingLosesNothing
  exact ⟨unpackHdr_packHdr, unpackNote_packNote, unpackRow_packRow, packHdr_unpackHdr, packNote_unpackNote⟩

/-! ## The canonical form -/

theorem Memory.ext_find {m n : Memory} (hm : m.wf = true) (hn : n.wf = true)
    (hh : ∀ k, Sparse.find m.hdrs k = Sparse.find n.hdrs k) (ht : ∀ k, Sparse.find m.notes k = Sparse.find n.notes k)
    (hs : ∀ k, Sparse.find m.songs k = Sparse.find n.songs k) : m = n := by
  simp only [Memory.wf, Bool.and_eq_true] at hm hn
  obtain ⟨⟨hmh, hmt⟩, hms⟩ := hm
  obtain ⟨⟨hnh, hnt⟩, hns⟩ := hn
  have hhdrs := Sparse.ext_find hmh hnh hh
  have hnotes := Sparse.ext_find hmt hnt ht
  have hsongs := Sparse.ext_find hms hns hs
  cases m
  cases n
  simp_all

/-- Settles O11: each of the three spaces is determined by what it lists, and a write keeps each space ordered. -/
theorem tablesHaveOneCanonicalForm : Obligations.TablesHaveOneCanonicalForm := by
  unfold Obligations.TablesHaveOneCanonicalForm
  exact ⟨fun _ _ => Memory.ext_find, Memory.wf_write⟩

/-! ## Records after a host write -/

theorem Memory.sfxHdr_write (m : Memory) (t : TableWrite) (j : Fin 64) :
    (m.write t).sfxHdr j =
      match t with
      | .hdr i v => if j = i then unpackHdr v else m.sfxHdr j
      | _ => m.sfxHdr j := by
  cases t with
  | hdr i v =>
    simp only [Memory.sfxHdr, Memory.hdrWord_write]
    split <;> rfl
  | note i n v => rfl
  | song p v => rfl

theorem Memory.sfxNote_write (m : Memory) (t : TableWrite) (j : Fin 64) (k : Fin 32) :
    (m.write t).sfxNote j k.val =
      match t with
      | .note i n v => if j = i ∧ k = n then unpackNote v else m.sfxNote j k.val
      | _ => m.sfxNote j k.val := by
  cases t with
  | note i n v =>
    simp only [Memory.sfxNote, Memory.noteWord_write, Nat.cast_inj, Fin.val_inj]
    split <;> rfl
  | hdr i v => rfl
  | song p v => rfl

theorem Memory.songRow_write (m : Memory) (t : TableWrite) (q : Fin 64) :
    (m.write t).songRow q =
      match t with
      | .song p v => if q = p then unpackRow v else m.songRow q
      | _ => m.songRow q := by
  cases t with
  | song p v =>
    simp only [Memory.songRow, Memory.songWord_write]
    split <;> rfl
  | hdr i v => rfl
  | note i n v => rfl

/-- Settles O9: the step is the host's write, and each kind of record is read back after it. -/
theorem hostTableChangeIsSeenNext : Obligations.HostTableChangeIsSeenNext := by
  unfold Obligations.HostTableChangeIsSeenNext
  intro s rest t
  refine ⟨_, step_of_port_table rfl, rfl, rfl, rfl, rfl, rfl, rfl, rfl, fun j => ?_, fun j k => ?_, fun q => ?_⟩
  · exact (Memory.sfxHdr_write s.env.tables t j).trans (by cases t <;> rfl)
  · exact (Memory.sfxNote_write s.env.tables t j k).trans (by cases t <;> rfl)
  · exact (Memory.songRow_write s.env.tables t q).trans (by cases t <;> rfl)

end Sys2Proof.Machine
end

section
/-! SUPPORT. `SFX` on each operand form (40_sfx_allocator.md): one equation per path of R120, and the channel the play
path selects (R124 to R126). -/

namespace Sys2Proof.Machine

/-! ## The paths -/

section
variable {a b c : Int} (s : State)

theorem sfxRequest_out_of_range (h : a < -2 ∨ 63 < a ∨ b < -1 ∨ 3 < b ∨ 31 < c) : sfxRequest a b c s = s := if_pos h

theorem sfxRequest_stop (hb : -1 ≤ b) (hb3 : b ≤ 3) (hc : c ≤ 31) : sfxRequest (-1) b c s = sfxStop b s := by
  rw [sfxRequest, if_neg (by omega), if_pos rfl]

theorem sfxRequest_stopLoop (hb : -1 ≤ b) (hb3 : b ≤ 3) (hc : c ≤ 31) : sfxRequest (-2) b c s = sfxStopLoop b s := by
  rw [sfxRequest, if_neg (by omega), if_neg (by decide), if_pos rfl]

theorem sfxRequest_play (x : Fin 64) (hb : -1 ≤ b) (hb3 : b ≤ 3) (hc : c ≤ 31) :
    sfxRequest x.val b c s = sfxPlay x b c s := by
  have := x.isLt
  rw [sfxRequest, if_neg (by omega), if_neg (by omega), if_neg (by omega), asIndex_val]

theorem sfxStop_none : sfxStop (-1) s = s := rfl

theorem sfxStop_val (ch : Fin 4) : sfxStop ch.val s = idleChannel ch s := by rw [sfxStop, asIndex_val]

theorem sfxStopLoop_none : sfxStopLoop (-1) s = s := rfl

theorem sfxStopLoop_val (ch : Fin 4) : sfxStopLoop ch.val s = s.setChan ch { s.chan ch with canLoop := false } := by
  rw [sfxStopLoop, asIndex_val]

end

theorem fin4_operand_range (ch : Fin 4) : (-1 : Int) ≤ ch.val ∧ (ch.val : Int) ≤ 3 := by omega

/-- Settles O15: the range check comes first. -/
theorem sfxOutOfRangeIsIgnored : Obligations.SfxOutOfRangeIsIgnored := by
  unfold Obligations.SfxOutOfRangeIsIgnored
  intro a b c s h
  rw [exec_sfx, sfxRequest_out_of_range s h]

/-! ## Stop and stop-loop (R122, R123) -/

theorem idleChannel_of_idle {ch : Fin 4} {s : State} (h : (s.chan ch).sfxId = none) : idleChannel ch s = s := by
  have hrec : { s.chan ch with sfxId := none } = s.chan ch := by rw [← h]
  rw [idleChannel, hrec, State.setChan_self]

/-- Synthesis leaves the music record to the sequencer. -/
theorem sampleCh_mus (c : Fin 4) (s : State) : (sampleCh c s).1.mus = (sequencerHook c s).mus :=
  (synth_frame c _).1.1

/-- Settles O16: the request is `idleChannel`, which keeps the music record, and the hook reads nothing else. -/
theorem sfxStopIdlesOneChannel : Obligations.SfxStopIdlesOneChannel := by
  unfold Obligations.SfxStopIdlesOneChannel
  intro c s hc
  refine ⟨by rw [exec_sfx, sfxRequest_stop s (by decide) (by decide) hc, sfxStop_none], fun ch => ?_⟩
  obtain ⟨hlo, hhi⟩ := fin4_operand_range ch
  refine ⟨idleChannel ch s, ?_, ⟨rfl, rfl, rfl, rfl, rfl⟩, State.setChan_chan_self _ _ _,
    fun k hk => State.setChan_chan_ne _ _ _ _ hk, idleChannel_of_idle, fun k p hp hm => ?_⟩
  · rw [exec_sfx, sfxRequest_stop s hlo hhi hc, sfxStop_val]
  · rw [sampleCh_mus, sequencerHook_of_playing_master (s := idleChannel ch s) hp hm]

theorem loopWrap_of_not_canLoop (h : SfxHeader) (nxt : Rat) : loopWrap h false nxt = nxt := by
  rw [loopWrap, if_neg (by simp)]

/-- Settles O17: the request clears one flag, and the wrap tests that flag. -/
theorem sfxStopLoopClearsOneFlag : Obligations.SfxStopLoopClearsOneFlag := by
  unfold Obligations.SfxStopLoopClearsOneFlag
  intro c s hc
  refine ⟨by rw [exec_sfx, sfxRequest_stopLoop s (by decide) (by decide) hc, sfxStopLoop_none], fun ch => ?_⟩
  obtain ⟨hlo, hhi⟩ := fin4_operand_range ch
  refine ⟨s.setChan ch { s.chan ch with canLoop := false }, ?_, ⟨rfl, rfl, rfl, rfl, rfl⟩,
    State.setChan_chan_self _ _ _, fun k hk => State.setChan_chan_ne _ _ _ _ hk, fun h nxt => ?_⟩
  · rw [exec_sfx, sfxRequest_stopLoop s hlo hhi hc, sfxStopLoop_val]
  · rw [State.setChan_chan_self]
    exact loopWrap_of_not_canLoop h nxt

/-! ## The selected channel (R124 to R126) -/

section
variable {a : Fin 64} {b : Int} {s : State}

theorem selectChannel_given (hlo : 0 ≤ b) (hhi : b ≤ 3) : ((selectChannel a b s).val : Int) = b := by
  lift b to Nat using hlo
  have hindex : asIndex 4 (b : Int) = some ⟨b, by omega⟩ := asIndex_val (n := 4) ⟨b, by omega⟩
  rw [selectChannel, hindex]

theorem selectChannel_pass1 (h : ∃ k, (s.chan k).sfxId = none ∨ (s.chan k).sfxId = some a) :
    ((s.chan (selectChannel a (-1) s)).sfxId = none ∨ (s.chan (selectChannel a (-1) s)).sfxId = some a) ∧
      ∀ k, k < selectChannel a (-1) s → (s.chan k).sfxId ≠ none ∧ (s.chan k).sfxId ≠ some a := by
  obtain ⟨k₀, hk₀⟩ := h
  have hindex : asIndex 4 (-1) = none := rfl
  cases hfirst : firstChannel fun i => pass1Accepts a (s.chan i) with
  | none =>
    have := firstChannel_eq_none.mp hfirst k₀
    rw [pass1Accepts_iff.mpr hk₀] at this
    cases this
  | some ch =>
    obtain ⟨hch, hbelow⟩ := firstChannel_eq_some hfirst
    have hsel : selectChannel a (-1) s = ch := by rw [selectChannel, hindex, hfirst]
    rw [hsel]
    refine ⟨pass1Accepts_iff.mp hch, fun k hk => not_or.mp fun hacc => ?_⟩
    have := hbelow k hk
    rw [pass1Accepts_iff.mpr hacc] at this
    cases this

theorem selectChannel_pass2 (h : ∀ k, (s.chan k).sfxId ≠ none ∧ (s.chan k).sfxId ≠ some a) :
    selectChannel a (-1) s = pass2 s := by
  have hindex : asIndex 4 (-1) = none := rfl
  have hfirst : (firstChannel fun i => pass1Accepts a (s.chan i)) = none :=
    firstChannel_eq_none.mpr fun k => Bool.eq_false_iff.mpr fun hacc => not_or.mpr (h k) (pass1Accepts_iff.mp hacc)
  rw [selectChannel, hindex, hfirst]

end

/-! ## The play path (R127 to R130) -/

/-- Settles O18: the play path initialises the selected channel; the three clauses on the selection are its passes. -/
theorem sfxPlayChoosesClearsAndInitialises : Obligations.SfxPlayChoosesClearsAndInitialises := by
  unfold Obligations.SfxPlayChoosesClearsAndInitialises
  intro a b c s hb hb3 hc
  obtain ⟨hframe, hchan⟩ := sfxPlay_spec a b c s
  refine ⟨selectChannel a b s, sfxPlay a b c s, by rw [exec_sfx, sfxRequest_play s a hb hb3 hc], hframe, ?_, ?_, ?_, ?_,
    ?_⟩
  · rw [hchan, if_pos rfl]
    rfl
  · intro k hk
    rw [hchan, if_neg hk]
  · intro hne
    exact selectChannel_given (by omega) hb3
  · rintro rfl hex
    exact selectChannel_pass1 hex
  · rintro rfl hall k
    rw [selectChannel_pass2 hall]
    exact pass2_spec s k

/-- Settles O19: the selected channel plays `a`, and the others that did are idled. -/
theorem sfxPlayLeavesExactlyOneChannel : Obligations.SfxPlayLeavesExactlyOneChannel := by
  unfold Obligations.SfxPlayLeavesExactlyOneChannel
  intro a b c s hb hb3 hc
  obtain ⟨ch, t, hexec, -, hch, hothers, -⟩ := sfxPlayChoosesClearsAndInitialises a b c s hb hb3 hc
  refine ⟨t, hexec, ch, by simp only [hch], fun k (hk : (t.chan k).sfxId = some a) => ?_⟩
  by_contra hne
  rw [hothers k hne] at hk
  split at hk
  · cases hk
  · contradiction

/-- Settles O20: no channel is idle or plays 4, so pass 2 takes the channel that plays 0, and no other one plays 4. -/
theorem sfxEvictsTheLowestNumberedSound : Obligations.SfxEvictsTheLowestNumberedSound := by
  unfold Obligations.SfxEvictsTheLowestNumberedSound
  intro s hs
  have hplays (k : Fin 4) : indexValue (s.chan k).sfxId = k.val := by
    obtain ⟨x, hx, hk⟩ := hs k
    rw [hk]
    exact congrArg Nat.cast hx
  have hother (k : Fin 4) : (s.chan k).sfxId ≠ none ∧ (s.chan k).sfxId ≠ some 4 := by
    have hk := hplays k
    constructor <;> intro h <;> rw [h] at hk <;> simp only [indexValue, Fin.isValue] at hk <;> omega
  obtain ⟨ch, t, hexec, -, hch, hothers, -, -, hpass2⟩ :=
    sfxPlayChoosesClearsAndInitialises 4 (-1) 0 s (by decide) (by decide) (by decide)
  obtain rfl : ch = 0 := by
    have hle := (hpass2 rfl hother 0).1
    rw [hplays, hplays] at hle
    exact Fin.ext (by simpa using hle)
  refine ⟨t, hexec, by rw [hch], fun k hk => ?_⟩
  rw [hothers k hk, if_neg (hother k).2]

/-- The outcomes of `SFX`, the sound effect of the play path being the operand. -/
theorem sfxRequest_outcomes (a b c : Int) (s : State) :
    sfxRequest a b c s = s ∨
      (∃ ch, sfxRequest a b c s = idleChannel ch s) ∨
      (∃ ch, sfxRequest a b c s = s.setChan ch { s.chan ch with canLoop := false }) ∨
      ∃ x : Fin 64, (x.val : Int) = a ∧ c ≤ 31 ∧ sfxRequest a b c s = sfxPlay x b c s := by
  by_cases hout : a < -2 ∨ 63 < a ∨ b < -1 ∨ 3 < b ∨ 31 < c
  · exact .inl (sfxRequest_out_of_range s hout)
  · simp only [not_or, not_lt] at hout
    obtain ⟨hlo, hhi, hb, hb3, hc⟩ := hout
    rcases (by omega : a = -1 ∨ a = -2 ∨ 0 ≤ a) with rfl | rfl | h0
    · rw [sfxRequest_stop s hb hb3 hc, sfxStop]
      cases asIndex 4 b with
      | none => exact .inl rfl
      | some ch => exact .inr (.inl ⟨ch, rfl⟩)
    · rw [sfxRequest_stopLoop s hb hb3 hc, sfxStopLoop]
      cases asIndex 4 b with
      | none => exact .inl rfl
      | some ch => exact .inr (.inr (.inl ⟨ch, rfl⟩))
    · lift a to Nat using h0
      exact .inr (.inr (.inr ⟨⟨a, by omega⟩, rfl, hc, sfxRequest_play s ⟨a, by omega⟩ hb hb3 hc⟩))

/-- Settles O21: the frame of the request, and its outcome on each channel. -/
theorem sfxFrame : Obligations.SfxFrame := by
  unfold Obligations.SfxFrame
  intro a b c s
  refine ⟨_, exec_sfx a b c s, sfxRequest_frame a b c s, fun k => ?_⟩
  rcases sfxRequest_outcomes a b c s with heq | ⟨ch, heq⟩ | ⟨ch, heq⟩ | ⟨x, hx, hc, heq⟩ <;> rw [heq]
  · exact .inl rfl
  · rw [idleChannel_chan]
    split
    · subst k; exact .inr (.inl rfl)
    · exact .inl rfl
  · rw [State.setChan_chan]
    split
    · subst k; exact .inr (.inr (.inl rfl))
    · exact .inl rfl
  · rw [(sfxPlay_spec x b c s).2]
    split
    · exact .inr (.inr (.inr ⟨x, max 0 c, hx, le_max_left 0 c, max_le (by decide) hc, rfl⟩))
    · split
      · exact .inr (.inl rfl)
      · exact .inl rfl

end Sys2Proof.Machine
end

section
/-! SUPPORT. `MUSIC` and `ACTIVATE` in the words of the statements (41_music_sequencer.md R140 to R149). -/

namespace Sys2Proof.Machine

/-! ## MUSIC (R140 to R144) -/

theorem musicRequest_out_of_range {a : Int} (b c : Int) (s : State) (h : a < -1 ∨ 63 < a) :
    musicRequest a b c s = s := if_pos h

theorem musicRequest_start (i : Fin 64) (b c : Int) (s : State) :
    musicRequest i.val b c s = musicStart i.val b c s := by
  have := i.isLt
  rw [musicRequest, if_neg (by omega), if_neg (by omega)]

/-- Settles O22: the range check comes first. -/
theorem musicOutOfRangeIsIgnored : Obligations.MusicOutOfRangeIsIgnored := by
  unfold Obligations.MusicOutOfRangeIsIgnored
  intro a b c s h
  rw [exec_music, musicRequest_out_of_range b c s h]

theorem toNat_ofInt_four (c : Int) : ((BitVec.ofInt 4 c).toNat : Int) = c % 16 := by
  rw [BitVec.toNat_ofInt]
  exact Int.toNat_of_nonneg (Int.emod_nonneg c (by decide))

theorem ofInt_four_ne_zero (c : Int) : BitVec.ofInt 4 c ≠ 0 ↔ c % 16 ≠ 0 := by
  rw [← toNat_ofInt_four, ne_eq, ne_eq, ← BitVec.toNat_inj]
  simp

theorem maskOf_toNat (t : Config.MaskZeroTest) (c : Int) :
    ((maskOf t c).toNat : Int) =
      match t with
      | .operand => if c ≠ 0 then c % 16 else 15
      | .masked => if c % 16 ≠ 0 then c % 16 else 15 := by
  cases t with
  | operand =>
    simp only [maskOf]
    split
    · exact toNat_ofInt_four c
    · rfl
  | masked =>
    simp only [maskOf, ofInt_four_ne_zero]
    split
    · exact toNat_ofInt_four c
    · rfl

/-- Settles O24: the start writes four fields, the mask among them, and activates. -/
theorem musicStartSetsUpAndActivates : Obligations.MusicStartSetsUpAndActivates := by
  unfold Obligations.MusicStartSetsUpAndActivates
  intro a b c s
  refine ⟨maskOf s.env.maskZeroTest c, ?_, ?_⟩
  · exact (maskOf_toNat s.env.maskZeroTest c).trans (by cases s.env.maskZeroTest <;> rfl)
  · rw [exec_music, musicRequest_start]
    rfl

/-- Settles O25: only the start path reaches a channel, through the activation. -/
theorem musicFrame : Obligations.MusicFrame := by
  unfold Obligations.MusicFrame
  intro a b c s
  refine ⟨_, exec_music a b c s, musicRequest_frame a b c s, fun k => ?_⟩
  rcases musicRequest_cases a b c s with ⟨-, heq⟩ | ⟨-, heq⟩ | ⟨-, -, heq⟩ <;> rw [heq]
  · exact .inl rfl
  · exact .inl rfl
  · exact activate_chan_cases a _ k

/-! ## ACTIVATE (R145 to R149) -/

/-- Settles O26: the scan of the slots finds the best one, and the triggering tests mask and slot. -/
theorem activateSelectsMasterAndTriggers : Obligations.ActivateSelectsMasterAndTriggers := by
  unfold Obligations.ActivateSelectsMasterAndTriggers
  intro p s
  have hbest := pickMaster_best s.env.tables (s.env.tables.songRow p)
  rw [activate_val]
  refine ⟨_, _, activateRow_mus p s, activateRow_frame p s, fun hnone => ?_, fun m hm => ?_, activateRow_chan p s⟩
  · rw [hnone] at hbest ⊢
    exact ⟨rfl, fun k => hbest k k.isLt⟩
  · rw [hm] at hbest ⊢
    obtain ⟨-, henabled, hmin⟩ := hbest
    exact ⟨henabled, Nat.cast_max 1 _, fun k => hmin k k.isLt⟩

/-- Settles O27: outside the table there is no row, which is `deactivate`. -/
theorem activateOutsideTheTableStops : Obligations.ActivateOutsideTheTableStops := by
  unfold Obligations.ActivateOutsideTheTableStops
  intro p s h
  rw [activate_outside (by omega) s]
  rfl

end Sys2Proof.Machine
end

section
/-! SUPPORT. `ADVANCE` in the words of the statements (41_music_sequencer.md R150 to R160): one equation per case of
R153 and R154, the length of a pattern, and the fades. -/

namespace Sys2Proof.Machine

/-! ## The three cases of ADVANCE -/

theorem advancePosition_eq (s : State) : advancePosition s = { s with mus := advancedMusic s.mus } :=
  congrArg s.setMus (advancePosition_mus_eq_advancedMusic s)

section
variable {p : Fin 64} {s : State}

theorem fadeOutDone_advancePosition_eq_false (h : ¬ fadesOut (advancedMusic s.mus)) :
    fadeOutDone (advancePosition s).mus = false := by
  rw [← fadeOutDone_iff_fadesOut, ← advancePosition_mus_eq_advancedMusic, Bool.not_eq_true] at h
  exact h

theorem advance_inside (hf : ¬ fadesOut (advancedMusic s.mus)) (ho : (advancedMusic s.mus).offset < 32) :
    advance p s = { s with mus := advancedMusic s.mus } := by
  rw [← advancePosition_mus_eq_advancedMusic] at ho
  rw [← advancePosition_eq, advance]
  simp only [fadeOutDone_advancePosition_eq_false hf]
  exact if_neg (not_le.mpr ho)

theorem advance_at_end (hf : ¬ fadesOut (advancedMusic s.mus)) (ho : 32 ≤ (advancedMusic s.mus).offset) :
    advance p s = endPattern p { s with mus := advancedMusic s.mus } := by
  rw [← advancePosition_mus_eq_advancedMusic] at ho
  rw [← advancePosition_eq, advance]
  simp only [fadeOutDone_advancePosition_eq_false hf]
  exact if_pos ho

theorem endPattern_stop (h : (s.env.tables.songRow p).stopFlag = true) : endPattern p s = activate (-1) s := if_pos h

theorem endPattern_loop (hs : (s.env.tables.songRow p).stopFlag = false)
    (hl : (s.env.tables.songRow p).loopFlag = true) :
    endPattern p s =
      activate (loopScan s.env.tables p.val : Nat) { s with mus := { s.mus with count := s.mus.count + 1 } } := by
  simp only [endPattern, hs, hl]
  rfl

theorem endPattern_next (hs : (s.env.tables.songRow p).stopFlag = false)
    (hl : (s.env.tables.songRow p).loopFlag = false) :
    endPattern p s = activate (p.val + 1) { s with mus := { s.mus with count := s.mus.count + 1 } } := by
  simp only [endPattern, hs, hl]
  rfl

end

/-- Settles O28: neither test of steps 3 and 4 succeeds. -/
theorem advanceInsideAPattern : Obligations.AdvanceInsideAPattern := by
  unfold Obligations.AdvanceInsideAPattern
  exact fun _ _ => advance_inside

/-- The pattern a loop goes back to (R155). -/
theorem loopScan_val (m : Memory) (p : Fin 64) :
    ∃ i : Fin 64, loopScan m p.val = i.val ∧ i ≤ p ∧ (i = 0 ∨ (m.songRow i).startFlag = true) ∧
      ∀ j : Fin 64, i < j → j ≤ p → (m.songRow j).startFlag = false := by
  obtain ⟨hle, hstart, hnone⟩ := loopScan_spec m p.val
  refine ⟨⟨loopScan m p.val, by omega⟩, rfl, hle, ?_, fun j hij hjp => ?_⟩
  · rw [← startsAt_val]
    exact hstart.imp_left fun h => Fin.ext h
  · rw [← startsAt_val]
    exact hnone j.val hij hjp

/-- Settles O30: the end of the pattern acts on the advanced record, along the flag that is set. -/
theorem advanceEndsAPattern : Obligations.AdvanceEndsAPattern := by
  unfold Obligations.AdvanceEndsAPattern
  intro p s hf ho
  rw [advance_at_end hf ho]
  refine ⟨fun hs => endPattern_stop hs, fun hs hl => ?_, fun hs hl => endPattern_next hs hl⟩
  obtain ⟨i, hscan, hle, hstart, hnone⟩ := loopScan_val s.env.tables p
  refine ⟨i, hle, hstart, hnone, ?_⟩
  exact (endPattern_loop (s := { s with mus := advancedMusic s.mus }) hs hl).trans
    (congrArg (fun q : Nat => activate q _) hscan)

/-- Settles O31: with no fade-out completing, a channel changes only by the activation at the end of a pattern. -/
theorem advanceIdlesOnlyAtFadeOut : Obligations.AdvanceIdlesOnlyAtFadeOut := by
  unfold Obligations.AdvanceIdlesOnlyAtFadeOut
  intro p s hf k
  rcases lt_or_ge (advancedMusic s.mus).offset 32 with ho | ho
  · rw [advance_inside hf ho]
    exact .inl rfl
  · rw [advance_at_end hf ho]
    obtain ⟨q, n, hend⟩ := endPattern_cases p { s with mus := advancedMusic s.mus }
    rw [hend]
    exact activate_chan_cases q _ k

/-! ## The length of a pattern (R157) -/

/-- `u` is `n` executions of `ADVANCE` into a pattern that `s` began at speed `S`, with no fade-out. -/
structure InPattern (s : State) (S n : Nat) (u : State) : Prop where
  offset : u.mus.offset = (n : Rat) / (183 * (S : Rat))
  speed : u.mus.speed = (S : Int)
  isNeg : u.mus.volumeStep.isNeg = false
  pattern : u.mus.pattern = s.mus.pattern
  count : u.mus.count = s.mus.count
  ch : u.ch = s.ch

section
variable {p : Fin 64} {s u : State} {S n : Nat}

theorem not_fadesOut_of_isNeg_eq_false {m : Music} (h : m.volumeStep.isNeg = false) : ¬ fadesOut (advancedMusic m) := by
  intro hf
  have hneg : m.volumeStep.isNeg = true := (QInf.isNeg_iff _).mpr hf.1
  simp [h] at hneg

theorem InPattern.advancedMusic_offset (h : InPattern s S n u) :
    (advancedMusic u.mus).offset = ((n + 1 : Nat) : Rat) / (183 * (S : Rat)) := by
  simp only [advancedMusic, h.offset, h.speed]
  push_cast
  ring

theorem InPattern.advance (hS : 1 ≤ S) (hn : n + 1 < 5856 * S) (h : InPattern s S n u) :
    InPattern s S (n + 1) (advance p u) := by
  have hpos : (0 : Rat) < 183 * (S : Rat) := by positivity
  have hlt : (advancedMusic u.mus).offset < 32 := by
    have hcast : ((n + 1 : Nat) : Rat) < 5856 * (S : Rat) := by exact_mod_cast hn
    rw [h.advancedMusic_offset, div_lt_iff₀ hpos]
    linarith
  rw [advance_inside (not_fadesOut_of_isNeg_eq_false h.isNeg) hlt]
  exact ⟨h.advancedMusic_offset, h.speed, h.isNeg, h.pattern, h.count, h.ch⟩

theorem inPattern_iterate (hS : 1 ≤ S) (hspeed : s.mus.speed = (S : Int)) (hoff : s.mus.offset = 0)
    (hneg : s.mus.volumeStep.isNeg = false) (hn : n < 5856 * S) : InPattern s S n ((Machine.advance p)^[n] s) := by
  induction n with
  | zero => exact ⟨by simp [hoff], hspeed, hneg, rfl, rfl, rfl⟩
  | succ n ih =>
    rw [Function.iterate_succ_apply']
    exact (ih (by omega)).advance hS hn

end

/-- Settles O32: each execution inside the pattern adds one step, and `5856 * S` steps are 32. -/
theorem patternLastsItsLength : Obligations.PatternLastsItsLength := by
  unfold Obligations.PatternLastsItsLength
  intro p s S hS hspeed hoff hneg
  constructor
  · intro n hn
    have h := inPattern_iterate (p := p) hS hspeed hoff hneg hn
    exact ⟨h.offset, h.pattern, h.count, h.ch⟩
  · have hlast : 5856 * S - 1 + 1 = 5856 * S := by omega
    have hpos : (0 : Rat) < 183 * (S : Rat) := by positivity
    rw [(inPattern_iterate (p := p) hS hspeed hoff hneg (by omega)).advancedMusic_offset, hlast, div_eq_iff hpos.ne']
    push_cast
    ring

/-! ## The fades (R158) -/

theorem fadeIn_step {x d : Rat} (hx : 0 ≤ x) (hd : 0 ≤ d) : max 0 (min 1 (min 1 x + d)) = min 1 (x + d) := by
  rcases le_total x 1 with h | h
  · rw [min_eq_right h, max_eq_right (le_min zero_le_one (by linarith))]
  · rw [min_eq_left h, min_eq_left (by linarith), min_eq_left (by linarith), max_eq_right zero_le_one]

theorem fadeOut_step {v x d : Rat} (hv0 : 0 ≤ v) (hv1 : v ≤ 1) (hx : 0 ≤ x) (hd : 0 ≤ d) :
    max 0 (min 1 (v * max 0 (1 - x) - v * d)) = v * max 0 (1 - (x + d)) := by
  rcases le_total (x + d) 1 with h | h
  · have hx1 : max 0 (1 - x) = 1 - x := max_eq_right (by linarith)
    have hxd1 : max 0 (1 - (x + d)) = 1 - (x + d) := max_eq_right (by linarith)
    have hval : v * (1 - x) - v * d = v * (1 - (x + d)) := by ring
    have h0 : 0 ≤ v * (1 - (x + d)) := mul_nonneg hv0 (by linarith)
    have h1 : v * (1 - (x + d)) ≤ 1 := mul_le_one₀ hv1 (by linarith) (by linarith)
    rw [hx1, hxd1, hval, min_eq_right h1, max_eq_right h0]
  · have hle : v * max 0 (1 - x) ≤ v * d := mul_le_mul_of_nonneg_left (max_le hd (by linarith)) hv0
    rw [max_eq_left (by linarith : 1 - (x + d) ≤ 0), mul_zero, max_eq_left ((min_le_right _ _).trans (by linarith))]

/-- Settles O33: one step of either fade moves the closed form from `n` to `n + 1`. -/
theorem fadesAreLinear : Obligations.FadesAreLinear := by
  unfold Obligations.FadesAreLinear
  intro b hb n
  have hb' : (0 : Rat) < (b : Rat) := by exact_mod_cast hb
  have hd : 0 ≤ 20 / (441 * (b : Rat)) := by positivity
  have hx (n : Nat) : 0 ≤ 20 * (n : Rat) / (441 * (b : Rat)) := by positivity
  have hsucc (n : Nat) : 20 * ((n + 1 : Nat) : Rat) / (441 * (b : Rat)) =
      20 * (n : Rat) / (441 * (b : Rat)) + 20 / (441 * (b : Rat)) := by
    push_cast
    ring
  refine ⟨?_, fun v hv0 hv1 => ?_, fun v => fadeVolume_negInf v⟩
  · induction n with
    | zero => simp
    | succ n ih =>
      have hstep : 1000 / (b : Rat) / 22050 = 20 / (441 * (b : Rat)) := by field_simp; norm_num
      rw [Function.iterate_succ_apply', ih, fadeVolume_fin, hstep, fadeIn_step (hx n) hd, hsucc]
  · induction n with
    | zero => simp
    | succ n ih =>
      have hstep : -v * 1000 / (b : Rat) / 22050 = -(v * (20 / (441 * (b : Rat)))) := by field_simp; ring
      rw [Function.iterate_succ_apply', ih, fadeVolume_fin, hstep, ← sub_eq_add_neg, fadeOut_step hv0 hv1 (hx n) hd,
        hsucc]

end Sys2Proof.Machine
end

section
/-! SUPPORT. One channel's synthesis in the words of the statements (42_sample_synthesizer.md R173 to R181): position,
note, sample. -/

namespace Sys2Proof.Machine

/-! ## The position (R173, R174) -/

theorem positionStep_effectiveSpeed (h : SfxHeader) :
    positionStep (effectiveSpeed h : Rat) = 1 / (183 * max 1 (h.speed.val : Rat)) := by
  rw [positionStep, effectiveSpeed, Nat.cast_max, Nat.cast_one]

theorem nextOffset_eq_steppedOffset (h : SfxHeader) (ch : Channel) : nextOffset h ch = steppedOffset h ch := by
  have hrange : h.loopStart < h.loopEnd ↔ (h.loopStart.val : Rat) < (h.loopEnd.val : Rat) := by
    rw [Nat.cast_lt]
    rfl
  simp only [nextOffset, loopWrap, steppedOffset, positionStep_effectiveSpeed, hrange]
  rfl

/-! ## The record and the sample of a playing channel -/

section
variable {c : Fin 4} {x : Fin 64} {s : State} (hx : (s.chan c).sfxId = some x)
include hx

theorem synth_chan_of_playing : (synth c s).1.chan c = (playChannel s.env x (s.chan c)).1 := by
  rw [synth_playing hx]
  exact State.setChan_chan_self _ _ _

theorem synth_sample_of_playing : (synth c s).2 = (playChannel s.env x (s.chan c)).2 := by rw [synth_playing hx]

end

/-- Settles O36: `Book` writes the stepped position and, at a note boundary before the end, the snapshot. -/
theorem playingChannelKeepsItsBooks : Obligations.PlayingChannelKeepsItsBooks := by
  unfold Obligations.PlayingChannelKeepsItsBooks
  intro c x s hx nxt note t
  have hchan : t.chan c = (playChannel s.env x (s.chan c)).1 := synth_chan_of_playing hx
  have hnxt : nextOffset (s.env.tables.sfxHdr x) (s.chan c) = nxt := nextOffset_eq_steppedOffset _ _
  obtain ⟨hframe, hothers⟩ := synth_frame c s
  refine ⟨hframe, hothers, ?_, ?_, ?_, ?_, ?_, ?_⟩ <;> rw [hchan]
  · rw [playChannel_offset, hnxt]
  · rw [playChannel_sfxId, hnxt, hx]
  · exact playChannel_canLoop _ _ _
  · exact playChannel_isMusic _ _ _
  · rw [playChannel_prevKey, hnxt]
    rfl
  · rw [playChannel_prevVolume, hnxt]
    rfl

theorem trunc_eq_ite (q : Rat) : trunc q = if 0 ≤ q then ⌊q⌋ else ⌈q⌉ := by
  split
  · exact trunc_of_nonneg ‹_›
  · exact trunc_of_nonpos (le_of_not_ge ‹_›)

/-- Settles O37: the silent path keeps the phase, the audible one reads the waveform before it adds the increment. -/
theorem playingChannelSoundsItsNote : Obligations.PlayingChannelSoundsItsNote := by
  unfold Obligations.PlayingChannelSoundsItsNote
  intro c x s hx note w product
  have hsilent : normalVolume (currentNote s.env.tables x (s.chan c)) = 0 ↔ note.volume = 0 := normalVolume_eq_zero _
  rw [synth_chan_of_playing hx, synth_sample_of_playing hx, playChannel_phase, playChannel_sample]
  constructor
  · intro hvol
    rw [if_pos (hsilent.mpr hvol), if_pos (hsilent.mpr hvol)]
    exact ⟨rfl, rfl⟩
  · intro hvol
    rw [if_neg (mt hsilent.mp hvol), if_neg (mt hsilent.mp hvol)]
    exact ⟨trunc_eq_ite product, rfl⟩

/-- Settles O38: the waveform is clamped, and read at the phase within the cycle. -/
theorem waveIsBoundedAndPeriodic : Obligations.WaveIsBoundedAndPeriodic := by
  unfold Obligations.WaveIsBoundedAndPeriodic
  intro e id ph
  obtain ⟨hlo, hhi⟩ := waveAt_bounds e id ph
  exact ⟨hlo, hhi, waveAt_congr e id (Nat.add_mod_right ph 4294967296)⟩

/-- Settles O39: a normalised volume and a waveform value scale full scale to below 32768 before the truncation. -/
theorem samplesNeverOverflow : Obligations.SamplesNeverOverflow := by
  unfold Obligations.SamplesNeverOverflow
  exact sampleCh_sample_bounds

/-- Settles O40: sixteen conversions, evaluated. -/
theorem fullScaleSamplesAreAsTabled : Obligations.FullScaleSamplesAreAsTabled := by
  unfold Obligations.FullScaleSamplesAreAsTabled
  decide +kernel

/-- Settles O44: synthesis reads the channel and the inputs, which a change of the music record leaves alone. -/
theorem fadeVolumeScalesNothing : Obligations.FadeVolumeScalesNothing := by
  unfold Obligations.FadeVolumeScalesNothing
  intro c s m
  have hchan : State.chan { s with mus := m } c = s.chan c := rfl
  cases hx : (s.chan c).sfxId with
  | none =>
    rw [synth_idle hx, synth_idle (hchan ▸ hx)]
    exact ⟨rfl, rfl⟩
  | some x =>
    rw [synth_playing hx, synth_playing (hchan ▸ hx)]
    exact ⟨rfl, rfl⟩

end Sys2Proof.Machine
end

section
/-! SUPPORT. The PHASE_INC table (42_sample_synthesizer.md R181): a bound on a twelfth root is a bound on twelfth
powers, which are integers here. -/

namespace Sys2Proof.Machine

/-- `n` halves lie below the increment of key `k`, by twelfth powers. -/
def HalvesBelow (n k : Nat) : Prop := (n * 22050) ^ 12 * 2 ^ 33 < (2 ^ 33 * 440) ^ 12 * 2 ^ k

/-- `n` halves lie above the increment of key `k`, by twelfth powers. -/
def HalvesAbove (n k : Nat) : Prop := (2 ^ 33 * 440) ^ 12 * 2 ^ k < (n * 22050) ^ 12 * 2 ^ 33

theorem phaseInc_between : ∀ k : Fin 64,
    HalvesBelow (2 * Config.phaseInc k - 1) k ∧ HalvesAbove (2 * Config.phaseInc k + 1) k := by
  unfold HalvesBelow HalvesAbove
  decide +kernel

/-- The increment of key `k` before rounding (R181). -/
noncomputable def exactIncrement (k : Nat) : ℝ := (2 : ℝ) ^ (32 : ℕ) * 440 * (2 : ℝ) ^ (((k : ℝ) - 33) / 12) / 22050

theorem exactIncrement_pos (k : Nat) : 0 < exactIncrement k := by
  unfold exactIncrement
  positivity

theorem exactIncrement_pow (k : Nat) :
    (2 * exactIncrement k * 22050) ^ 12 * 2 ^ 33 = ((2 ^ 33 * 440) ^ 12 * 2 ^ k : ℝ) := by
  have hroot : ((2 : ℝ) ^ (((k : ℝ) - 33) / 12)) ^ 12 * 2 ^ 33 = 2 ^ k := by
    rw [← Real.rpow_natCast, ← Real.rpow_mul (by norm_num), ← Real.rpow_natCast, ← Real.rpow_natCast,
      ← Real.rpow_add (by norm_num)]
    congr 1
    push_cast
    ring
  have hscale : 2 * exactIncrement k * 22050 = 2 ^ 33 * 440 * (2 : ℝ) ^ (((k : ℝ) - 33) / 12) := by
    unfold exactIncrement
    ring
  rw [hscale, mul_pow, mul_assoc, hroot]

theorem lt_two_mul_exactIncrement {n k : Nat} (h : HalvesBelow n k) : (n : ℝ) < 2 * exactIncrement k := by
  have hcast : ((n : ℝ) * 22050) ^ 12 * 2 ^ 33 < (2 * exactIncrement k * 22050) ^ 12 * 2 ^ 33 := by
    rw [exactIncrement_pow]
    unfold HalvesBelow at h
    exact_mod_cast h
  have hpos := exactIncrement_pos k
  have hpow := lt_of_mul_lt_mul_right hcast (by positivity)
  have hlt := lt_of_pow_lt_pow_left₀ 12 (by positivity) hpow
  linarith

theorem two_mul_exactIncrement_lt {n k : Nat} (h : HalvesAbove n k) : 2 * exactIncrement k < (n : ℝ) := by
  have hcast : (2 * exactIncrement k * 22050) ^ 12 * 2 ^ 33 < ((n : ℝ) * 22050) ^ 12 * 2 ^ 33 := by
    rw [exactIncrement_pow]
    unfold HalvesAbove at h
    exact_mod_cast h
  have hpow := lt_of_mul_lt_mul_right hcast (by positivity)
  have hlt := lt_of_pow_lt_pow_left₀ 12 (by positivity) hpow
  linarith

/-- Settles O41: the exact increment lies strictly between half below and half above the tabled one. -/
theorem phaseIncrementsAreNearest : Obligations.PhaseIncrementsAreNearest := by
  unfold Obligations.PhaseIncrementsAreNearest
  intro k
  obtain ⟨hbelow, habove⟩ := phaseInc_between k
  have hlo := lt_two_mul_exactIncrement hbelow
  have hhi := two_mul_exactIncrement_lt habove
  have hsub : (2 * (Config.phaseInc k : ℝ)) - 1 ≤ ((2 * Config.phaseInc k - 1 : Nat) : ℝ) := by
    have : 2 * Config.phaseInc k ≤ 2 * Config.phaseInc k - 1 + 1 := by omega
    have hcast : ((2 * Config.phaseInc k : Nat) : ℝ) ≤ ((2 * Config.phaseInc k - 1 : Nat) : ℝ) + 1 := by
      exact_mod_cast this
    push_cast at hcast ⊢
    linarith
  push_cast at hhi
  change |exactIncrement k - (Config.phaseInc k : ℝ)| < 1 / 2
  rw [abs_lt]
  constructor <;> linarith

end Sys2Proof.Machine
end

section
/-! SUPPORT. Evaluating one channel again and again with the music stopped (42_sample_synthesizer.md R174, R184): loops
that never end, and the length of a playback. -/

namespace Sys2Proof.Machine

/-- `SAMPLECH(c)` for its effect on the state. -/
abbrev evaluate (c : Fin 4) (s : State) : State := (sampleCh c s).1

theorem evaluate_of_stopped {c : Fin 4} {s : State} (h : s.mus.pattern = none) : evaluate c s = (synth c s).1 := by
  rw [evaluate, sampleCh_eq_synth_sequencerHook, sequencerHook_stopped h]

/-- Channel `c` of `u` plays sound effect `x` from the tables of `s`, and no music interferes. -/
structure PlaysAlone (s : State) (c : Fin 4) (x : Fin 64) (u : State) : Prop where
  stopped : u.mus.pattern = none
  env : u.env = s.env
  sfxId : (u.chan c).sfxId = some x

section
variable {s u : State} {c : Fin 4} {x : Fin 64} (h : PlaysAlone s c x u)
include h

theorem PlaysAlone.evaluate_chan : (evaluate c u).chan c = (playChannel s.env x (u.chan c)).1 := by
  rw [evaluate_of_stopped h.stopped, synth_chan_of_playing h.sfxId, h.env]

theorem PlaysAlone.evaluate_offset :
    ((evaluate c u).chan c).offset = nextOffset (s.env.tables.sfxHdr x) (u.chan c) := by
  rw [h.evaluate_chan, playChannel_offset]

theorem PlaysAlone.evaluate_canLoop : ((evaluate c u).chan c).canLoop = (u.chan c).canLoop := by
  rw [h.evaluate_chan, playChannel_canLoop]

theorem PlaysAlone.evaluate_of_lt (hlt : nextOffset (s.env.tables.sfxHdr x) (u.chan c) < 32) :
    PlaysAlone s c x (evaluate c u) := by
  obtain ⟨⟨hmus, henv, -⟩, -⟩ := synth_frame c u
  refine ⟨?_, ?_, ?_⟩
  · rw [evaluate_of_stopped h.stopped, hmus, h.stopped]
  · rw [evaluate_of_stopped h.stopped, henv, h.env]
  · rw [h.evaluate_chan, playChannel_sfxId, if_neg (not_le.mpr hlt), h.sfxId]

theorem PlaysAlone.evaluate_of_ge (hge : 32 ≤ nextOffset (s.env.tables.sfxHdr x) (u.chan c)) :
    ((evaluate c u).chan c).sfxId = none := by
  rw [h.evaluate_chan, playChannel_sfxId, if_pos hge]

end

/-! ## Loops (R174(b), T8) -/

/-- A channel that plays `x` alone, with its loop flag set, at a position a note has. -/
structure Loops (s : State) (c : Fin 4) (x : Fin 64) (u : State) : Prop extends PlaysAlone s c x u where
  canLoop : (u.chan c).canLoop = true
  offset_nonneg : 0 ≤ (u.chan c).offset
  offset_lt : (u.chan c).offset < 32

/-- The loop range of a header ends inside the sound effect. -/
structure RangeInside (h : SfxHeader) : Prop where
  start_lt_end : h.loopStart < h.loopEnd
  end_le : h.loopEnd.val ≤ 32

section
variable {h : SfxHeader} {ch : Channel}

theorem nextOffset_mem_range (hr : RangeInside h) (hl : ch.canLoop = true) (hs : (h.loopStart.val : Rat) ≤ ch.offset) :
    (h.loopStart.val : Rat) ≤ nextOffset h ch ∧ nextOffset h ch < (h.loopEnd.val : Rat) := by
  have hpos := positionStep_pos (effectiveSpeed_pos h)
  rcases loopWrap_spec h ch.canLoop (ch.offset + positionStep (effectiveSpeed h : Rat)) with
    ⟨-, -, -, hlo, hhi, -⟩ | ⟨hno, -⟩
  · exact ⟨hlo, hhi⟩
  · exact absurd ⟨hr.start_lt_end, by linarith, hl⟩ hno

theorem nextOffset_lt_of_loop (hr : RangeInside h) (hl : ch.canLoop = true) : nextOffset h ch < 32 := by
  have hend : (h.loopEnd.val : Rat) ≤ 32 := by exact_mod_cast hr.end_le
  have hlt : (h.loopStart.val : Rat) < (h.loopEnd.val : Rat) := by exact_mod_cast hr.start_lt_end
  unfold nextOffset
  rcases loopWrap_spec h ch.canLoop (ch.offset + positionStep (effectiveSpeed h : Rat)) with
    ⟨-, -, -, -, hhi, -⟩ | ⟨hno, heq⟩
  · linarith
  · have hbelow : ch.offset + positionStep (effectiveSpeed h : Rat) < (h.loopStart.val : Rat) := by
      by_contra hge
      exact hno ⟨hr.start_lt_end, not_lt.mp hge, hl⟩
    rw [heq]
    linarith

end

section
variable {s u : State} {c : Fin 4} {x : Fin 64}

theorem Loops.evaluate (hr : RangeInside (s.env.tables.sfxHdr x)) (h : Loops s c x u) :
    Loops s c x (evaluate c u) := by
  have hlt := nextOffset_lt_of_loop hr h.canLoop
  refine ⟨h.evaluate_of_lt hlt, h.evaluate_canLoop.trans h.canLoop, ?_, ?_⟩ <;> rw [h.evaluate_offset]
  · exact (nextOffset_bounds _ _ h.offset_nonneg).1
  · exact hlt

theorem Loops.iterate (hr : RangeInside (s.env.tables.sfxHdr x)) (h : Loops s c x u) (n : Nat) :
    Loops s c x ((Machine.evaluate c)^[n] u) := by
  induction n with
  | zero => exact h
  | succ n ih =>
    rw [Function.iterate_succ_apply']
    exact ih.evaluate hr

theorem Loops.evaluate_mem_range (hr : RangeInside (s.env.tables.sfxHdr x)) (h : Loops s c x u)
    (hs : ((s.env.tables.sfxHdr x).loopStart.val : Rat) ≤ (u.chan c).offset) :
    ((s.env.tables.sfxHdr x).loopStart.val : Rat) ≤ ((Machine.evaluate c u).chan c).offset ∧
      ((Machine.evaluate c u).chan c).offset < ((s.env.tables.sfxHdr x).loopEnd.val : Rat) := by
  rw [h.evaluate_offset]
  exact nextOffset_mem_range hr h.canLoop hs

/-- Past its start, every evaluation ends inside the range. -/
theorem Loops.iterate_mem_range (hr : RangeInside (s.env.tables.sfxHdr x)) (h : Loops s c x u)
    (hs : ((s.env.tables.sfxHdr x).loopStart.val : Rat) ≤ (u.chan c).offset) (n : Nat) :
    ((s.env.tables.sfxHdr x).loopStart.val : Rat) ≤ (((Machine.evaluate c)^[n + 1] u).chan c).offset ∧
      (((Machine.evaluate c)^[n + 1] u).chan c).offset < ((s.env.tables.sfxHdr x).loopEnd.val : Rat) := by
  induction n with
  | zero => exact h.evaluate_mem_range hr hs
  | succ n ih =>
    rw [Function.iterate_succ_apply']
    exact (h.iterate hr (n + 1)).evaluate_mem_range hr ih.1

end

/-- Settles O42: the wrap keeps a looping channel below the end of its range, which is at most 32. -/
theorem loopingChannelNeverEnds : Obligations.LoopingChannelNeverEnds := by
  unfold Obligations.LoopingChannelNeverEnds
  intro c x s hstopped hx hloop h0 h32 hlt hend n
  have hr : RangeInside (s.env.tables.sfxHdr x) := ⟨hlt, hend⟩
  have h : Loops s c x s := ⟨⟨hstopped, rfl, hx⟩, hloop, h0, h32⟩
  refine ⟨(h.iterate hr n).sfxId, fun hs hn => ?_⟩
  obtain ⟨n, rfl⟩ := Nat.exists_eq_add_of_le' hn
  exact h.iterate_mem_range hr hs n

/-! ## Playback without a wrap (R184) -/

theorem one_le_effectiveSpeed (h : SfxHeader) : 1 ≤ effectiveSpeed h := le_max_left _ _

/-- The header and the loop flag allow no wrap. -/
abbrev NoWrap (h : SfxHeader) (loop : Bool) : Prop := loop = false ∨ h.loopEnd ≤ h.loopStart

theorem nextOffset_of_noWrap {h : SfxHeader} {ch : Channel} (hw : NoWrap h ch.canLoop) :
    nextOffset h ch = ch.offset + 1 / (183 * (effectiveSpeed h : Rat)) := by
  unfold nextOffset
  rcases loopWrap_spec h ch.canLoop (ch.offset + positionStep (effectiveSpeed h : Rat)) with
    ⟨hlt, -, hl, -⟩ | ⟨-, heq⟩
  · rcases hw with hf | hle
    · rw [hf] at hl
      cases hl
    · exact absurd hlt (not_lt.mpr hle)
  · exact heq

/-- `n` evaluations into a playback of `x` from `o`. -/
structure PlaybackAt (s : State) (c : Fin 4) (x : Fin 64) (loop : Bool) (o n : Nat) (u : State) : Prop
    extends PlaysAlone s c x u where
  canLoop : (u.chan c).canLoop = loop
  offset : (u.chan c).offset = (o : Rat) + (n : Rat) / (183 * (effectiveSpeed (s.env.tables.sfxHdr x) : Rat))

section
variable {s u : State} {c : Fin 4} {x : Fin 64} {loop : Bool} {o n : Nat}

theorem PlaybackAt.nextOffset_eq (hw : NoWrap (s.env.tables.sfxHdr x) loop) (h : PlaybackAt s c x loop o n u) :
    nextOffset (s.env.tables.sfxHdr x) (u.chan c) =
      (o : Rat) + ((n + 1 : Nat) : Rat) / (183 * (effectiveSpeed (s.env.tables.sfxHdr x) : Rat)) := by
  rw [nextOffset_of_noWrap (h.canLoop ▸ hw), h.offset]
  push_cast
  ring

/-- Positions and evaluation counts: 32 is reached after `(32 - o) * 183 * sp` evaluations, and not before. -/
theorem position_lt_iff {sp : Nat} (hsp : 1 ≤ sp) (ho : o ≤ 31) :
    (o : Rat) + (n : Rat) / (183 * (sp : Rat)) < 32 ↔ n < (32 - o) * 183 * sp := by
  have hpos : (0 : Rat) < 183 * (sp : Rat) := by positivity
  obtain ⟨r, hr⟩ : ∃ r, o + r = 32 := ⟨32 - o, by omega⟩
  have hrq : (o : Rat) + (r : Rat) = 32 := by exact_mod_cast hr
  have hsub : 32 - o = r := by omega
  rw [hsub, ← hrq, add_lt_add_iff_left, div_lt_iff₀ hpos, ← mul_assoc]
  exact_mod_cast Iff.rfl

theorem PlaybackAt.evaluate (hw : NoWrap (s.env.tables.sfxHdr x) loop) (ho : o ≤ 31)
    (hn : n + 1 < (32 - o) * 183 * effectiveSpeed (s.env.tables.sfxHdr x)) (h : PlaybackAt s c x loop o n u) :
    PlaybackAt s c x loop o (n + 1) (evaluate c u) := by
  have hnext := h.nextOffset_eq hw
  have hlt : nextOffset (s.env.tables.sfxHdr x) (u.chan c) < 32 := by
    rw [hnext]
    exact (position_lt_iff (one_le_effectiveSpeed _) ho).mpr hn
  exact ⟨h.evaluate_of_lt hlt, h.evaluate_canLoop.trans h.canLoop, h.evaluate_offset.trans hnext⟩

theorem PlaybackAt.evaluate_last (hw : NoWrap (s.env.tables.sfxHdr x) loop) (ho : o ≤ 31)
    (hn : n + 1 = (32 - o) * 183 * effectiveSpeed (s.env.tables.sfxHdr x)) (h : PlaybackAt s c x loop o n u) :
    ((Machine.evaluate c u).chan c).sfxId = none := by
  refine h.evaluate_of_ge (not_lt.mp fun hlt => ?_)
  rw [h.nextOffset_eq hw, position_lt_iff (one_le_effectiveSpeed _) ho] at hlt
  omega

theorem playbackAt_iterate {mus : Bool} (hstopped : s.mus.pattern = none) (ho : o ≤ 31)
    (htrig : s.chan c = triggered x (o : Rat) loop mus) (hw : NoWrap (s.env.tables.sfxHdr x) loop)
    (hn : n < (32 - o) * 183 * effectiveSpeed (s.env.tables.sfxHdr x)) :
    PlaybackAt s c x loop o n ((Machine.evaluate c)^[n] s) := by
  induction n with
  | zero =>
    refine ⟨⟨hstopped, rfl, ?_⟩, ?_, ?_⟩ <;> simp [htrig, triggered]
  | succ n ih =>
    rw [Function.iterate_succ_apply']
    exact (ih (by omega)).evaluate hw ho hn

end

/-- Settles O43: each evaluation adds one step, and the last one ends the sound effect. -/
theorem playbackLastsItsLength : Obligations.PlaybackLastsItsLength := by
  unfold Obligations.PlaybackLastsItsLength
  intro c x o sp loop mus s hstopped ho htrig hw hsp
  obtain rfl : sp = effectiveSpeed (s.env.tables.sfxHdr x) := hsp
  constructor
  · intro n hn
    have h := playbackAt_iterate hstopped ho htrig hw hn
    exact ⟨h.sfxId, h.offset⟩
  · have hpos : 0 < (32 - o) * 183 * effectiveSpeed (s.env.tables.sfxHdr x) :=
      Nat.mul_pos (by omega) (one_le_effectiveSpeed _)
    obtain ⟨n, hn⟩ := Nat.exists_eq_add_of_le' hpos
    have h := playbackAt_iterate (n := n) hstopped ho htrig hw (by omega)
    rw [hn, Function.iterate_succ_apply']
    exact h.evaluate_last hw ho hn.symm

end Sys2Proof.Machine
end

section
/-! SUPPORT. `TICK` and `FILL` in the words of the statements (43_mixer_fill.md R190 to R195, 70_reset_and_hazards.md
R221). -/

namespace Sys2Proof.Machine

/-! ## The mix of one tick (R190, R191) -/

theorem asr3_eq_floor (v : Int) : asr3 v = ⌊(v : Rat) / 8⌋ := (Rat.floor_intCast_div_natCast v 8).symm

theorem mix_eq (s : State) :
    let r0 := sampleCh 0 s
    let r1 := sampleCh 1 r0.1
    let r2 := sampleCh 2 r1.1
    let r3 := sampleCh 3 r2.1
    mix s = (r3.1, asr3 r0.2 + asr3 r1.2 + asr3 r2.2 + asr3 r3.2) := by
  simp only [mix, Config.chOrder, mixFrom, zero_add]

/-- What one evaluation adds to the mix. -/
theorem floor_sample_bounds {c : Fin 4} {s : State} {r : State × Int} (hr : r = sampleCh c s) :
    -4096 ≤ ⌊(r.2 : Rat) / 8⌋ ∧ ⌊(r.2 : Rat) / 8⌋ ≤ 4095 := by
  obtain ⟨hlo, hhi⟩ := sampleCh_sample_bounds c s
  rw [← asr3_eq_floor, hr]
  exact asr3_bounds hlo hhi

/-- Settles O46: the mix is four evaluations in turn, each of which adds -4096 to 4095 and leaves the frames alone. -/
theorem tickMixesFourChannelsInOrder : Obligations.TickMixesFourChannelsInOrder := by
  unfold Obligations.TickMixesFourChannelsInOrder
  intro s r0 r1 r2 r3 acc
  have hmix : mix s = (r3.1, acc) := by
    rw [mix_eq]
    simp only [asr3_eq_floor]
    rfl
  obtain ⟨lo0, hi0⟩ := floor_sample_bounds (r := r0) rfl
  obtain ⟨lo1, hi1⟩ := floor_sample_bounds (r := r1) rfl
  obtain ⟨lo2, hi2⟩ := floor_sample_bounds (r := r2) rfl
  obtain ⟨lo3, hi3⟩ := floor_sample_bounds (r := r3) rfl
  refine ⟨by omega, by omega, ?_⟩
  obtain ⟨-, -, -, hout⟩ := mixFrom_frame Config.chOrder s 0
  have hout' : r3.1.out = s.out := by rw [← hout, ← mix, hmix]
  rw [tick, hmix, ← hout']
  rfl

/-! ## The frame of a fill (R193, R195) -/

theorem frameOf_halves (a : Int) : (frameOf a).extractLsb' 0 16 = (frameOf a).extractLsb' 16 16 := by
  have hlow : (frameOf a).extractLsb' 0 16 = u16 a := BitVec.extractLsb'_append_eq_right
  have hhigh : (frameOf a).extractLsb' 16 16 = u16 a := BitVec.extractLsb'_append_eq_left
  rw [hlow, hhigh]

theorem ticks_out (n : Nat) (s : State) :
    ∃ fs : List Frame, (ticks n s).out = s.out ++ fs ∧ fs.length = n ∧
      ∀ f ∈ fs, f.extractLsb' 0 16 = f.extractLsb' 16 16 := by
  induction n generalizing s with
  | zero => exact ⟨[], by simp, rfl, by simp⟩
  | succ n ih =>
    obtain ⟨-, -, -, hout⟩ := tick_frame s
    obtain ⟨fs, hfs, hlen, hhalves⟩ := ih (tick s)
    refine ⟨frameOf (mix s).2 :: fs, ?_, by rw [List.length_cons, hlen], ?_⟩
    · rw [ticks_succ, hfs, hout, List.append_assoc, List.singleton_append]
    · exact List.forall_mem_cons.mpr ⟨frameOf_halves _, hhalves⟩

/-- `b` has the two flags of `a`, or those of a channel the sequencer triggered. -/
def FlagsKept (a b : Channel) : Prop :=
  (b.canLoop = a.canLoop ∧ b.isMusic = a.isMusic) ∨ (b.canLoop = false ∧ b.isMusic = true)

theorem FlagsKept.of_eq {a b b' : Channel} (h : FlagsKept a b) (hloop : b'.canLoop = b.canLoop)
    (hmusic : b'.isMusic = b.isMusic) : FlagsKept a b' := by
  unfold FlagsKept
  rwa [hloop, hmusic]

theorem FlagsKept.apply {a b : Channel} (h : FlagsKept a b) (g : SeqMove) : FlagsKept a (g.apply b) := by
  cases g with
  | keep => exact h
  | trigger x => exact .inr ⟨rfl, rfl⟩
  | idleMusic =>
    rw [idleMusic_apply]
    split
    · exact h.of_eq rfl rfl
    · exact h

theorem sequencerHook_flagsKept {s t : State} (h : ∀ k, FlagsKept (s.chan k) (t.chan k)) (c k : Fin 4) :
    FlagsKept (s.chan k) ((sequencerHook c t).chan k) := by
  rcases sequencerHook_cases c t with ⟨p, -, -, heq⟩ | ⟨-, heq⟩ <;> rw [heq]
  · obtain ⟨g, hg⟩ := advance_moves p t
    rw [hg k]
    exact (h k).apply (g k)
  · exact h k

theorem synth_flags (c k : Fin 4) (t : State) :
    ((synth c t).1.chan k).canLoop = (t.chan k).canLoop ∧ ((synth c t).1.chan k).isMusic = (t.chan k).isMusic := by
  by_cases hk : k = c
  · subst hk
    cases hx : (t.chan k).sfxId with
    | none => rw [synth_idle hx]; exact ⟨rfl, rfl⟩
    | some x => rw [synth_chan_of_playing hx]; exact ⟨playChannel_canLoop _ _ _, playChannel_isMusic _ _ _⟩
  · rw [(synth_frame c t).2 k hk]
    exact ⟨rfl, rfl⟩

theorem ticks_flagsKept (n : Nat) (s : State) (k : Fin 4) : FlagsKept (s.chan k) ((ticks n s).chan k) := by
  have hsample (c : Fin 4) (t : State) (h : ∀ k, FlagsKept (s.chan k) (t.chan k)) :
      ∀ k, FlagsKept (s.chan k) ((sampleCh c t).1.chan k) := fun k =>
    (sequencerHook_flagsKept h c k).of_eq (synth_flags c k _).1 (synth_flags c k _).2
  have htick (t : State) (h : ∀ k, FlagsKept (s.chan k) (t.chan k)) : ∀ k, FlagsKept (s.chan k) ((tick t).chan k) :=
    mix_induct (P := fun t => ∀ k, FlagsKept (s.chan k) (t.chan k)) hsample h
  exact ticks_induct (P := fun t => ∀ k, FlagsKept (s.chan k) (t.chan k)) htick n (fun _ => .inl ⟨rfl, rfl⟩) k

/-- Settles O50: the frames, the rest of the boundary, and the flags of `n` ticks; the null buffer runs none. -/
theorem fillFrame : Obligations.FillFrame := by
  unfold Obligations.FillFrame
  intro bv n s
  cases bv with
  | false =>
    exact ⟨s, [], exec_fill_null n s, rfl, rfl, rfl, (List.append_nil _).symm, rfl, by simp, fun _ => .inl ⟨rfl, rfl⟩⟩
  | true =>
    obtain ⟨henv, hport, hresp, -⟩ := ticks_frame n s
    obtain ⟨fs, hout, hlen, hhalves⟩ := ticks_out n s
    exact ⟨_, fs, exec_fill_buffer n s, henv, hport, hresp, hout, hlen, hhalves, ticks_flagsKept n s⟩

/-- Settles O51: ticks add up. -/
theorem fillSplits : Obligations.FillSplits := by
  unfold Obligations.FillSplits
  intro a b s
  exact ⟨_, _, exec_fill_buffer a s, exec_fill_buffer b _, by rw [exec_fill_buffer, ticks_add]⟩

/-! ## A silent core (R221) -/

theorem sampleCh_silent {s : State} (h : s.Silent) (c : Fin 4) : sampleCh c s = (s, 0) := by
  obtain ⟨hidle, hstopped⟩ := h
  rw [sampleCh_eq_synth_sequencerHook, sequencerHook_stopped hstopped, synth_idle (hidle c)]

theorem frameOf_zero : frameOf 0 = 0 := by decide

theorem tick_silent {s : State} (h : s.Silent) : tick s = { s with out := s.out ++ [0] } := by
  have hmix : mix s = (s, 0) := by
    rw [mix_eq]
    simp only [sampleCh_silent h]
    rfl
  rw [tick, hmix, frameOf_zero]
  rfl

/-- Settles O52: a tick of a silent core appends a zero frame, after which the core is silent still. -/
theorem silentCoreFillsWithZeros : Obligations.SilentCoreFillsWithZeros := by
  unfold Obligations.SilentCoreFillsWithZeros
  intro n s h
  rw [exec_fill_buffer]
  congr 1
  induction n generalizing s with
  | zero => simp
  | succ n ih =>
    have h' : State.Silent { s with out := s.out ++ [0] } := h
    rw [ticks_succ, tick_silent h, ih _ h', List.replicate_succ, List.append_assoc, List.singleton_append]

end Sys2Proof.Machine
end

section
/-! SUPPORT. The sequencer inside a tick (41_music_sequencer.md R150, R159, R160): it reads no channel, and runs once
for each master whose channel is still to come. -/

namespace Sys2Proof.Machine

/-! ## The music record depends on the music record and the inputs alone -/

section
variable {s t : State}

theorem advance_mus_congr (p : Fin 64) (hm : s.mus = t.mus) (he : s.env = t.env) :
    (advance p s).mus = (advance p t).mus := by
  obtain ⟨m', _, h⟩ := advance_factors p s.mus s.env
  rw [(h s rfl rfl).1, (h t hm.symm he.symm).1]

/-- The same music record and the same inputs. -/
def SameMusic (s t : State) : Prop := s.mus = t.mus ∧ s.env = t.env

theorem SameMusic.sampleCh (c : Fin 4) (h : SameMusic s t) : SameMusic (sampleCh c s).1 (sampleCh c t).1 := by
  obtain ⟨hm, he⟩ := h
  refine ⟨?_, by rw [(sampleCh_frame c s).1, (sampleCh_frame c t).1, he]⟩
  rw [sampleCh_mus, sampleCh_mus]
  unfold sequencerHook
  rw [← hm]
  cases s.mus.pattern with
  | none => exact hm
  | some p =>
    dsimp only
    split
    · exact advance_mus_congr p hm he
    · exact hm

theorem SameMusic.mixFrom (cs : List (Fin 4)) (acc acc' : Int) (h : SameMusic s t) :
    SameMusic (mixFrom cs s acc).1 (mixFrom cs t acc').1 := by
  induction cs generalizing s t acc acc' with
  | nil => exact h
  | cons c cs ih => exact ih _ _ (h.sampleCh c)

theorem SameMusic.tick (h : SameMusic s t) : SameMusic (tick s) (tick t) := h.mixFrom Config.chOrder 0 0

theorem SameMusic.ticks (n : Nat) (h : SameMusic s t) : SameMusic (ticks n s) (ticks n t) := by
  induction n generalizing s t with
  | zero => exact h
  | succ n ih => exact ih h.tick

end

/-- Settles O60: states that differ in their channels alone have the same music record tick by tick. -/
theorem sequencerIgnoresTheChannels : Obligations.SequencerIgnoresTheChannels := by
  unfold Obligations.SequencerIgnoresTheChannels
  intro bv n s cs
  have h : SameMusic s { s with ch := cs } := ⟨rfl, rfl⟩
  cases bv with
  | false => exact ⟨_, _, exec_fill_null n _, exec_fill_null n _, h.1⟩
  | true => exact ⟨_, _, exec_fill_buffer n _, exec_fill_buffer n _, (h.ticks n).1⟩

/-! ## How often a tick runs the sequencer (R159) -/

/-- The master of playing music. -/
def PlayingMaster (m : Music) (p : Fin 64) (c : Fin 4) : Prop := m.pattern = some p ∧ m.master = some c

section
variable {s : State} {cs : List (Fin 4)}

theorem sampleCh_mus_of_not_master {c : Fin 4} (h : ∀ p, ¬ PlayingMaster s.mus p c) :
    (sampleCh c s).1.mus = s.mus := by
  rw [sampleCh_mus]
  rcases sequencerHook_cases c s with ⟨p, hp, hm, -⟩ | ⟨-, heq⟩
  · exact absurd ⟨hp, hm⟩ (h p)
  · rw [heq]

theorem mixFrom_mus_of_no_master (acc : Int) (h : ∀ c ∈ cs, ∀ p, ¬ PlayingMaster s.mus p c) :
    (mixFrom cs s acc).1.mus = s.mus := by
  induction cs generalizing s acc with
  | nil => rfl
  | cons c cs ih =>
    obtain ⟨hc, hcs⟩ := List.forall_mem_cons.mp h
    have hkeep := sampleCh_mus_of_not_master hc
    exact (ih _ (by rwa [hkeep])).trans hkeep

/-- In an ascending list the master's evaluation runs the sequencer, and the channels above the master go on from the
music record it leaves. -/
theorem mixFrom_mus_of_master {p : Fin 64} {m : Fin 4} (acc : Int) (hcs : cs.Pairwise (· < ·)) (hmem : m ∈ cs)
    (h : PlayingMaster s.mus p m) :
    ∃ (ds : List (Fin 4)) (u : State) (acc' : Int), ds.Pairwise (· < ·) ∧ (∀ c, c ∈ ds ↔ c ∈ cs ∧ m < c) ∧
      u.env = s.env ∧ u.mus = (advance p s).mus ∧ (mixFrom cs s acc).1.mus = (mixFrom ds u acc').1.mus := by
  induction cs generalizing s acc with
  | nil => cases hmem
  | cons c cs ih =>
    obtain ⟨hlt, hpair⟩ := List.pairwise_cons.mp hcs
    have henv := (sampleCh_frame c s).1
    by_cases hcm : c = m
    · subst hcm
      obtain ⟨hp, hm⟩ := h
      refine ⟨cs, (sampleCh c s).1, _, hpair, fun d => ?_, henv, ?_, rfl⟩
      · rw [List.mem_cons]
        exact ⟨fun hd => ⟨.inr hd, hlt d hd⟩, fun ⟨hd, hcd⟩ => hd.resolve_left hcd.ne'⟩
      · rw [sampleCh_mus, sequencerHook_of_playing_master hp hm]
    · have hm : m ∈ cs := (List.mem_cons.mp hmem).resolve_left (Ne.symm hcm)
      have hkeep : (sampleCh c s).1.mus = s.mus :=
        sampleCh_mus_of_not_master fun q hq => hcm (Option.some.inj (hq.2.symm.trans h.2))
      obtain ⟨ds, u, acc', hds, hdmem, huenv, humus, hmix⟩ := ih (acc + asr3 (sampleCh c s).2) hpair hm (by rwa [hkeep])
      refine ⟨ds, u, acc', hds, fun d => ?_, huenv.trans henv, humus.trans (advance_mus_congr p hkeep henv), hmix⟩
      rw [hdmem d, List.mem_cons]
      have hcm' : c < m := hlt m hm
      exact ⟨fun ⟨hd, hmd⟩ => ⟨.inr hd, hmd⟩, fun ⟨hd, hmd⟩ => ⟨hd.resolve_left (hcm'.trans hmd).ne', hmd⟩⟩

end

/-- After `ADVANCE` the music is stopped, has its old master, or has just begun a pattern at a speed of at least 1. -/
theorem advance_master_cases (p : Fin 64) (s : State) :
    (advance p s).mus.pattern = none ∨ (advance p s).mus.master = s.mus.master ∨
      (advance p s).mus.master = none ∨ ((advance p s).mus.offset = 0 ∧ 1 ≤ (advance p s).mus.speed) := by
  rcases advance_cases p s with ⟨-, heq⟩ | ⟨-, -, heq⟩ | ⟨-, -, heq⟩ <;> rw [heq]
  · exact .inl (by rw [(finishFadeOut_spec _).1])
  · obtain ⟨q, n, hend⟩ := endPattern_cases p (advancePosition s)
    rw [hend]
    rcases activate_cases q ((advancePosition s).setMus { (advancePosition s).mus with count := n }) with
      ⟨i, -, hact⟩ | ⟨-, hact⟩ <;> rw [hact]
    · rw [activateRow_mus]
      obtain ⟨hnone, hspeed⟩ := masterSpeed_range s.env.tables (s.env.tables.songRow i)
        (pickMaster s.env.tables (s.env.tables.songRow i))
      rcases hspeed with hminus | ⟨hone, -⟩
      · exact .inr (.inr (.inl (hnone.mpr hminus)))
      · exact .inr (.inr (.inr ⟨rfl, hone⟩))
    · exact .inl rfl
  · exact .inr (.inl rfl)

/-- One step from the start of a pattern does not end it. -/
theorem advance_of_offset_zero (p : Fin 64) {s : State} (hoff : s.mus.offset = 0) (hspeed : 1 ≤ s.mus.speed) :
    (advance p s).mus.pattern = none ∨ (advance p s).mus.master = s.mus.master := by
  rcases advance_cases p s with ⟨-, heq⟩ | ⟨-, hge, -⟩ | ⟨-, -, heq⟩
  · exact .inl (by rw [heq, (finishFadeOut_spec _).1])
  · have hstep := positionStep_le (x := (s.mus.speed : Rat)) (by exact_mod_cast hspeed)
    rw [hoff] at hge
    linarith
  · exact .inr (by rw [heq, advancePosition_mus])

/-- A new master comes with a new pattern, so the run after it changes no master. -/
theorem advance_advance_master {s u : State} {p q r : Fin 64} {m m' m'' : Fin 4} (hm : s.mus.master = some m)
    (hu : u.mus = (advance p s).mus) (h : PlayingMaster u.mus q m') (hne : m' ≠ m)
    (h' : PlayingMaster (advance q u).mus r m'') : m'' = m' := by
  obtain ⟨hpat, hmaster⟩ := h
  obtain ⟨hpat', hmaster'⟩ := h'
  have hcases := advance_master_cases p s
  rw [← hu, hpat, hmaster, hm] at hcases
  obtain ⟨hoff, hspeed⟩ : u.mus.offset = 0 ∧ 1 ≤ u.mus.speed := by simpa [hne] using hcases
  rcases advance_of_offset_zero q hoff hspeed with hstop | hsame
  · simp [hstop] at hpat'
  · rw [hmaster', hmaster] at hsame
    exact Option.some.inj hsame

theorem chOrder_pairwise : Config.chOrder.Pairwise (· < ·) := by decide

theorem mem_chOrder : ∀ m : Fin 4, m ∈ Config.chOrder := by decide

/-- Settles O47: the channels below the master do not run the sequencer, the master does, and of those above it only a
new master does, once. -/
theorem tickRunsTheSequencerAgainForAHigherMaster : Obligations.TickRunsTheSequencerAgainForAHigherMaster := by
  unfold Obligations.TickRunsTheSequencerAgainForAHigherMaster
  intro s
  constructor
  · intro hno
    refine mixFrom_mus_of_no_master 0 fun c _ p ⟨hp, hm⟩ => ?_
    rcases hno with hstopped | hnone
    · simp [hstopped] at hp
    · simp [hnone] at hm
  · intro p m hp hm
    obtain ⟨ds, u, acc, hds, hmem, hue, hum, hmix⟩ :=
      mixFrom_mus_of_master 0 chOrder_pairwise (mem_chOrder m) ⟨hp, hm⟩
    have htick : (tick s).mus = (mixFrom ds u acc).1.mus := hmix
    by_cases hagain : ∃ (q : Fin 64) (m' : Fin 4), (advance p s).mus.pattern = some q ∧
        (advance p s).mus.master = some m' ∧ m < m'
    · obtain ⟨q, m', hq, hm', hlt⟩ := hagain
      have hplay : PlayingMaster u.mus q m' := ⟨hum ▸ hq, hum ▸ hm'⟩
      obtain ⟨es, v, acc', -, hmem', -, hvm, hmix'⟩ :=
        mixFrom_mus_of_master acc hds ((hmem m').mpr ⟨mem_chOrder m', hlt⟩) hplay
      have hrest : (mixFrom es v acc').1.mus = v.mus := by
        refine mixFrom_mus_of_no_master acc' fun c hc r hr => ?_
        have hsame : c = m' := advance_advance_master hm hum hplay hlt.ne' (hvm ▸ hr)
        exact absurd ((hmem' c).mp hc).2 (by rw [hsame]; exact lt_irrefl m')
      have hsecond : (advance q u).mus = (advance q (advance p s)).mus :=
        advance_mus_congr q hum (hue.trans (advance_frame p s).1.symm)
      exact .inl ⟨q, m', hq, hm', hlt, by rw [htick, hmix', hrest, hvm, hsecond]⟩
    · have hrest : (mixFrom ds u acc).1.mus = u.mus := by
        refine mixFrom_mus_of_no_master acc fun c hc q hq => hagain ?_
        obtain ⟨hpat, hmaster⟩ := hq
        exact ⟨q, c, hum ▸ hpat, hum ▸ hmaster, ((hmem c).mp hc).2⟩
      exact .inr ⟨hagain, by rw [htick, hrest, hum]⟩

end Sys2Proof.Machine
end

section
/-! SUPPORT. The STAT view register by register (44_stat.md R196, 10_state.md R46), and the ranges of its values
(R197). -/

namespace Sys2Proof.Machine

/-! ## Responses -/

theorem statAnswers_of_eq {s : State} {r : Int} {v : Response} (h : statValue s r = v) : StatAnswers s r v := by
  rw [StatAnswers, exec_stat, h]
  rfl

theorem statAnswers_reg (s : State) {n : Nat} (hn : n ≤ 14) : StatAnswers s n (u16 (statReg s n)) :=
  statAnswers_of_eq (if_pos (by omega))

theorem statAnswers_out_of_range (s : State) {r : Int} (hr : r < 0 ∨ 14 < r) : StatAnswers s r 0 :=
  statAnswers_of_eq (if_neg (by omega))

theorem statReg_sfx (s : State) (c : Fin 4) : statReg s c.val = indexValue (s.chan c).sfxId := by
  rcases Fin4.cases c with rfl | rfl | rfl | rfl <;> rfl

theorem statReg_note (s : State) (c : Fin 4) : statReg s (4 + c.val) = channelNote (s.chan c) := by
  rcases Fin4.cases c with rfl | rfl | rfl | rfl <;> rfl

theorem statAnswers_sfx (s : State) (c : Fin 4) : StatAnswers s c.val (u16 (indexValue (s.chan c).sfxId)) := by
  rw [← statReg_sfx]
  exact statAnswers_reg s (by omega)

theorem statAnswers_note (s : State) (c : Fin 4) : StatAnswers s (4 + c.val) (u16 (channelNote (s.chan c))) := by
  rw [← statReg_note]
  exact statAnswers_reg s (n := 4 + c.val) (by omega)

/-! ## 16-bit values -/

theorem u16_natCast (n : Nat) : u16 (n : Int) = BitVec.ofNat 16 n := BitVec.ofInt_natCast 16 n

theorem u16_toNat {w : Nat} (v : BitVec w) : u16 (v.toNat : Int) = v.setWidth 16 := by
  rw [u16_natCast, BitVec.ofNat_toNat]

theorem toInt_u16 {v : Int} (hlo : -32768 ≤ v) (hhi : v ≤ 32767) : (u16 v).toInt = v :=
  sext16_u16 (by simp [isInt16, hlo, hhi])

/-- The bits of CH_FLAGS (R46, register 14): 256 sums of weights. -/
theorem flagWeights_bits : ∀ l0 l1 l2 l3 m0 m1 m2 m3 : Bool,
    let v := u16 (flagWeight l0 1 + flagWeight l1 2 + flagWeight l2 4 + flagWeight l3 8 + flagWeight m0 16 +
      flagWeight m1 32 + flagWeight m2 64 + flagWeight m3 128)
    ([0, 1, 2, 3, 4, 5, 6, 7].map fun i => v.getLsbD i) = [l0, l1, l2, l3, m0, m1, m2, m3] ∧ v.toNat < 256 := by
  decide +kernel

theorem chFlags_toNat_lt (cs : Channels) : (u16 (chFlags cs)).toNat < 256 := (flagWeights_bits _ _ _ _ _ _ _ _).2

theorem chFlags_getLsbD (s : State) (c : Fin 4) :
    (u16 (chFlags s.ch)).getLsbD c.val = (s.chan c).canLoop ∧
      (u16 (chFlags s.ch)).getLsbD (4 + c.val) = (s.chan c).isMusic := by
  have hbits := (flagWeights_bits s.ch.ch0.canLoop s.ch.ch1.canLoop s.ch.ch2.canLoop s.ch.ch3.canLoop
    s.ch.ch0.isMusic s.ch.ch1.isMusic s.ch.ch2.isMusic s.ch.ch3.isMusic).1
  simp only [List.map_cons, List.map_nil, List.cons.injEq] at hbits
  obtain ⟨l0, l1, l2, l3, m0, m1, m2, m3, -⟩ := hbits
  rcases Fin4.cases c with rfl | rfl | rfl | rfl
  · exact ⟨l0, m0⟩
  · exact ⟨l1, m1⟩
  · exact ⟨l2, m2⟩
  · exact ⟨l3, m3⟩

theorem chFlags_getLsbD_high (cs : Channels) {i : Nat} (hi : 8 ≤ i) : (u16 (chFlags cs)).getLsbD i = false :=
  Nat.testBit_lt_two_pow ((chFlags_toNat_lt cs).trans_le (Nat.pow_le_pow_right (n := 2) (by decide) hi))

/-- Settles O53: each register is one branch of the view, as a 16-bit value. -/
theorem statAnswersTheView : Obligations.StatAnswersTheView := by
  unfold Obligations.StatAnswersTheView
  intro s
  refine ⟨fun c => ?_, fun c => ?_, ?_, ?_, ?_, ?_, ?_, statAnswers_reg s (n := 13) (by decide), ?_,
    fun r => statAnswers_out_of_range s⟩
  · have h := statAnswers_sfx s c
    cases hx : (s.chan c).sfxId <;> rwa [hx] at h
  · have h := statAnswers_note s c
    unfold channelNote at h
    cases hx : (s.chan c).sfxId <;> rwa [hx] at h
  · have h := statAnswers_reg s (n := 8) (by decide)
    unfold statReg at h
    cases hx : s.mus.pattern <;> rwa [hx] at h
  · have h := statAnswers_reg s (n := 9) (by decide)
    rwa [statReg, u16_toNat, BitVec.setWidth_eq] at h
  · have h := statAnswers_reg s (n := 10) (by decide)
    unfold statReg musicNote at h
    cases hx : s.mus.pattern <;> rwa [hx] at h
  · have h := statAnswers_reg s (n := 11) (by decide)
    rwa [statReg, u16_toNat] at h
  · have h := statAnswers_reg s (n := 12) (by decide)
    unfold statReg at h
    cases hx : s.mus.master <;> rwa [hx] at h
  · exact ⟨_, statAnswers_reg s (n := 14) (by decide), chFlags_getLsbD s, fun i => chFlags_getLsbD_high s.ch⟩

/-! ## Ranges (R197) -/

theorem indexValue_range {n : Nat} (o : Option (Fin n)) : -1 ≤ indexValue o ∧ indexValue o < n := by
  cases o with
  | none => exact ⟨le_rfl, by simp only [indexValue]; omega⟩
  | some i =>
    have := i.isLt
    simp only [indexValue]
    omega

theorem floor_range {q : Rat} (h0 : 0 ≤ q) (h32 : q < 32) : -1 ≤ floor q ∧ floor q ≤ 31 := by
  have hlo : 0 ≤ ⌊q⌋ := Int.floor_nonneg.mpr h0
  have hhi : ⌊q⌋ < 32 := Int.floor_lt.mpr (by exact_mod_cast h32)
  rw [floor_eq]
  omega

theorem channelNote_range {ch : Channel} (h : ch.Ok) : -1 ≤ channelNote ch ∧ channelNote ch ≤ 31 := by
  obtain ⟨h0, -, hplay, -⟩ := h
  unfold channelNote
  cases hx : ch.sfxId with
  | none => exact ⟨le_rfl, by norm_num⟩
  | some x => exact floor_range h0 (hplay (by simp [hx]))

theorem musicNote_range {m : Music} (h : m.Ok) : -1 ≤ musicNote m ∧ musicNote m ≤ 31 := by
  obtain ⟨-, -, -, -, h0, -, hplay⟩ := h
  unfold musicNote
  cases hp : m.pattern with
  | none => exact ⟨le_rfl, by norm_num⟩
  | some p => exact floor_range h0 (hplay (by simp [hp]))

/-- A register that answers a value in a range of `int16` answers it as such. -/
theorem statAnswers_range {s : State} {r v lo hi : Int} (h : StatAnswers s r (u16 v)) (hv : lo ≤ v ∧ v ≤ hi)
    (hlo : -32768 ≤ lo) (hhi : hi ≤ 32767) : ∃ w, StatAnswers s r w ∧ lo ≤ w.toInt ∧ w.toInt ≤ hi := by
  obtain ⟨h1, h2⟩ := hv
  refine ⟨_, h, ?_⟩
  rw [toInt_u16 (by omega) (by omega)]
  exact ⟨h1, h2⟩

/-- Settles O54: indices and note numbers by their types and the invariant; mask and flags by their widths. -/
theorem statValuesStayInRange : Obligations.StatValuesStayInRange := by
  unfold Obligations.StatValuesStayInRange
  rintro s ⟨hchan, hmus, -⟩
  refine ⟨fun c => ?_, fun c => ?_, ?_, ?_, ?_, ?_, ?_, ?_⟩
  · obtain ⟨hlo, hhi⟩ := indexValue_range (s.chan c).sfxId
    exact statAnswers_range (statAnswers_sfx s c) ⟨hlo, by omega⟩ (by decide) (by decide)
  · exact statAnswers_range (statAnswers_note s c) (channelNote_range (hchan c)) (by decide) (by decide)
  · obtain ⟨hlo, hhi⟩ := indexValue_range s.mus.pattern
    exact statAnswers_range (statAnswers_reg s (n := 8) (by decide)) ⟨hlo, Int.le_of_lt_add_one hhi⟩ (by decide)
      (by decide)
  · exact statAnswers_range (statAnswers_reg s (n := 10) (by decide)) (musicNote_range hmus) (by decide) (by decide)
  · refine ⟨_, statAnswers_reg s (n := 11) (by decide), ?_⟩
    have hmask := s.mus.mask.isLt
    rw [statReg, u16_toNat, BitVec.toNat_setWidth]
    omega
  · obtain ⟨hlo, hhi⟩ := indexValue_range s.mus.master
    exact statAnswers_range (statAnswers_reg s (n := 12) (by decide)) ⟨hlo, Int.le_of_lt_add_one hhi⟩ (by decide)
      (by decide)
  · obtain ⟨-, -, -, hspeed, -⟩ := hmus
    refine ⟨_, statAnswers_reg s (n := 13) (by decide), ?_⟩
    rw [statReg, toInt_u16 (by omega) (by omega)]
    exact hspeed
  · exact ⟨_, statAnswers_reg s (n := 14) (by decide), Nat.le_of_lt_succ (chFlags_toNat_lt s.ch)⟩

end Sys2Proof.Machine
end

section
/-! SUPPORT. The `effect` field (42_sample_synthesizer.md R183): a tick on other tables that agree but for effects is
the same tick, with the other tables in place. -/

namespace Sys2Proof.Machine

/-- The same machine with the tables `m`. -/
def State.withTables (m : Memory) (s : State) : State := { s with env := { s.env with tables := m } }

@[simp] theorem withTables_chan (m : Memory) (s : State) (k : Fin 4) : (s.withTables m).chan k = s.chan k := rfl
@[simp] theorem withTables_mus (m : Memory) (s : State) : (s.withTables m).mus = s.mus := rfl
@[simp] theorem withTables_tables (m : Memory) (s : State) : (s.withTables m).env.tables = m := rfl

theorem withTables_setMus (m : Memory) (s : State) (u : Music) :
    (s.withTables m).setMus u = (s.setMus u).withTables m := rfl

/-- A choice between two states is a choice between the two with the tables in place. -/
theorem ite_withTables {m : Memory} {c : Prop} {i j : Decidable c} {s t s' t' : State} (hs : s' = s.withTables m)
    (ht : t' = t.withTables m) : @ite _ c i s' t' = (@ite _ c j s t).withTables m := by
  subst hs ht
  by_cases hc : c
  · rw [if_pos hc, if_pos hc]
  · rw [if_neg hc, if_neg hc]

/-- `f` does the same on any tables that `m` may stand for. -/
abbrev CommutesWithTables (m : Memory) (f : State → State) (s : State) : Prop :=
  f (s.withTables m) = (f s).withTables m

/-- Headers, song rows, and all of a note but its effect agree. -/
structure SameButEffects (m n : Memory) : Prop where
  hdr : ∀ i, m.sfxHdr i = n.sfxHdr i
  row : ∀ p, m.songRow p = n.songRow p
  note : ∀ (i : Fin 64) (k : Int), { m.sfxNote i k with effect := 0 } = { n.sfxNote i k with effect := 0 }

/-! ## The sequencer -/

section
variable {m n : Memory} (h : SameButEffects m n)
include h

theorem SameButEffects.pickMaster (row : SongRow) : pickMaster m row = pickMaster n row := by
  have hhdr : m.sfxHdr = n.sfxHdr := funext h.hdr
  unfold Machine.pickMaster pickStep
  rw [hhdr]

theorem SameButEffects.masterSpeed (row : SongRow) (o : Option (Fin 4)) :
    masterSpeed m row o = masterSpeed n row o := by
  cases o with
  | none => rfl
  | some k => simp only [Machine.masterSpeed, h.hdr]

theorem SameButEffects.loopScan (i : Nat) : loopScan m i = loopScan n i := by
  have hstarts (j : Nat) : startsAt m j = startsAt n j := by
    unfold startsAt
    cases asIndex 64 (j : Int) with
    | none => rfl
    | some p => exact congrArg SongRow.startFlag (h.row p)
  induction i with
  | zero => rfl
  | succ i ih => rw [Machine.loopScan, Machine.loopScan, hstarts, ih]

end

theorem forChannels_withTables {m : Memory} {f : Fin 4 → State → State} (hf : ∀ k s, CommutesWithTables m (f k) s)
    (s : State) : CommutesWithTables m (forChannels f) s := by
  simp only [CommutesWithTables, forChannels] at hf ⊢
  rw [hf, hf, hf, hf]

theorem triggerRow_withTables (m : Memory) (row : SongRow) (s : State) : CommutesWithTables m (triggerRow row) s := by
  refine forChannels_withTables (fun k u => ?_) s
  exact ite_withTables rfl rfl

theorem finishFadeOut_withTables (m : Memory) (s : State) : CommutesWithTables m finishFadeOut s := by
  have hloop := forChannels_withTables (m := m)
    (f := fun k s => if (s.chan k).isMusic then idleChannel k s else s) (fun k u => ite_withTables rfl rfl) s
  simp only [CommutesWithTables] at hloop ⊢
  simp only [finishFadeOut, hloop]
  rfl

section
variable {m : Memory} {s : State} (h : SameButEffects m s.env.tables)
include h

theorem activate_withTables (p : Int) : CommutesWithTables m (activate p) s := by
  simp only [CommutesWithTables, activate]
  cases asIndex 64 p with
  | none => rfl
  | some i =>
    simp only [activateRow, withTables_tables, withTables_mus, h.row, h.pickMaster, h.masterSpeed,
      withTables_setMus]
    exact triggerRow_withTables m _ _

theorem endPattern_withTables (p : Fin 64) : CommutesWithTables m (endPattern p) s := by
  simp only [CommutesWithTables, endPattern, withTables_tables, h.row, h.loopScan]
  split
  · exact activate_withTables h (-1)
  · exact activate_withTables (s := s.setMus { s.mus with count := s.mus.count + 1 }) h _

theorem advance_withTables (p : Fin 64) : CommutesWithTables m (advance p) s := by
  have hpos : advancePosition (s.withTables m) = (advancePosition s).withTables m := rfl
  simp only [CommutesWithTables, advance, hpos, withTables_mus]
  exact ite_withTables (finishFadeOut_withTables m _)
    (ite_withTables (endPattern_withTables (s := advancePosition s) h p) rfl)

theorem sequencerHook_withTables (c : Fin 4) : CommutesWithTables m (sequencerHook c) s := by
  simp only [CommutesWithTables, sequencerHook, withTables_mus]
  cases s.mus.pattern with
  | none => rfl
  | some p =>
    exact ite_withTables (advance_withTables h p) rfl

end

/-! ## Synthesis -/

theorem book_congr_note {n n' : Note} (hkey : n.key = n'.key) (hvol : n.volume = n'.volume) (nxt : Rat) (ch : Channel) :
    book nxt n ch = book nxt n' ch := by
  simp only [book, normalVolume, hkey, hvol]

theorem playChannel_withTables {e : Env} {m : Memory} (h : SameButEffects m e.tables) (x : Fin 64) (ch : Channel) :
    playChannel { e with tables := m } x ch = playChannel e x ch := by
  have hnote := h.note x (floor ch.offset)
  have hkey : (currentNote m x ch).key = (currentNote e.tables x ch).key := by injection hnote
  have hvol : (currentNote m x ch).volume = (currentNote e.tables x ch).volume := by injection hnote
  have hwave : (currentNote m x ch).waveform = (currentNote e.tables x ch).waveform := by injection hnote
  have hnormal : normalVolume (currentNote m x ch) = normalVolume (currentNote e.tables x ch) := by
    rw [normalVolume, normalVolume, hvol]
  have hread (id : BitVec 4) (ph : Nat) : waveAt { e with tables := m } id ph = waveAt e id ph := rfl
  simp only [playChannel, book_congr_note hkey hvol, hkey, hwave, hread, h.hdr]
  rw [hnormal]

section
variable {m : Memory} {s : State} (h : SameButEffects m s.env.tables)
include h

theorem synth_withTables (c : Fin 4) : synth c (s.withTables m) = ((synth c s).1.withTables m, (synth c s).2) := by
  cases hx : (s.chan c).sfxId with
  | none => rw [synth_idle hx, synth_idle (s := s.withTables m) hx]
  | some x =>
    have hplay : playChannel (s.withTables m).env x (s.chan c) = playChannel s.env x (s.chan c) :=
      playChannel_withTables h x _
    rw [synth_playing hx, synth_playing (s := s.withTables m) hx, withTables_chan, hplay]
    rfl

theorem sampleCh_withTables (c : Fin 4) :
    sampleCh c (s.withTables m) = ((sampleCh c s).1.withTables m, (sampleCh c s).2) := by
  have hhook : SameButEffects m (sequencerHook c s).env.tables := by rwa [(sequencerHook_frame c s).1]
  simp only [sampleCh, sequencerHook_withTables h c]
  exact synth_withTables hhook c

theorem mixFrom_withTables (cs : List (Fin 4)) (acc : Int) :
    mixFrom cs (s.withTables m) acc = ((mixFrom cs s acc).1.withTables m, (mixFrom cs s acc).2) := by
  induction cs generalizing s acc with
  | nil => rfl
  | cons c cs ih =>
    have hnext : SameButEffects m (sampleCh c s).1.env.tables := by rwa [(sampleCh_frame c s).1]
    simp only [mixFrom, sampleCh_withTables h c]
    exact ih hnext _

theorem tick_withTables : CommutesWithTables m tick s := by
  have hmix : mix (s.withTables m) = ((mix s).1.withTables m, (mix s).2) := mixFrom_withTables h Config.chOrder 0
  simp only [CommutesWithTables, tick, hmix]
  rfl

end

/-- Settles O45: the tick on the other tables is the same tick, with those tables in place. -/
theorem noteEffectsAreIgnored : Obligations.NoteEffectsAreIgnored := by
  unfold Obligations.NoteEffectsAreIgnored
  intro s m hhdr hrow hnote
  have htick : tick { s with env := { s.env with tables := m } } = (tick s).withTables m :=
    tick_withTables ⟨hhdr, hrow, hnote⟩
  rw [htick]
  exact ⟨rfl, rfl, rfl⟩

end Sys2Proof.Machine
end
